-- ==== Sys2Proof/Word.lean ====
section
/-! DEFINITION. The word types of the core (spec/00_scope.md R6, R7): every value is an unsigned
integer of a stated width, bit 0 the least significant. -/

namespace Sys2Proof

/-- One nibble of an opcode: a register index X or Y, or the count N (R40). -/
abbrev Nibble := BitVec 4

/-- One byte: a general register, a timer, a memory cell, the immediate NN (R12, R24, R40). -/
abbrev Byte := BitVec 8

/-- The 12-bit address immediate NNN (R40). -/
abbrev Imm12 := BitVec 12

/-- 16 bits: an opcode, the index register I, the program counter, a stack entry (R14, R15, R16, R39). -/
abbrev Word := BitVec 16

end Sys2Proof
end

