-- ==== Sys2Proof/Syntax.lean ====
section
/-! DEFINITION. The 35 instructions, one constructor per row of spec/opcode_table.json, in the
table's order (spec/30_encoding.md R42). Operands have the widths of R40, so an operand out of its
field's range cannot be written. -/

namespace Sys2Proof

/-- An instruction, decoded (R42). `x`, `y` are register indices, `nn` a byte, `nnn` an address
immediate, `n` the sprite height (R40, R41). -/
inductive Instr where
  /-- 0000 `NOP` (R60) -/
  | nop
  /-- 00E0 `CLS` (R91) -/
  | cls
  /-- 00EE `RET` (R61) -/
  | ret
  /-- 1NNN `JP NNN` (R62) -/
  | jp (nnn : Imm12)
  /-- 2NNN `CALL NNN` (R63) -/
  | call (nnn : Imm12)
  /-- 3XNN `SE Vx, NN` (R64) -/
  | seByte (x : Nibble) (nn : Byte)
  /-- 4XNN `SNE Vx, NN` (R65) -/
  | sneByte (x : Nibble) (nn : Byte)
  /-- 5XY0 `SE Vx, Vy` (R66) -/
  | seReg (x y : Nibble)
  /-- 6XNN `LD Vx, NN` (R71) -/
  | ldByte (x : Nibble) (nn : Byte)
  /-- 7XNN `ADD Vx, NN` (R72) -/
  | addByte (x : Nibble) (nn : Byte)
  /-- 8XY0 `LD Vx, Vy` (R73) -/
  | ldReg (x y : Nibble)
  /-- 8XY1 `OR Vx, Vy` (R74) -/
  | orReg (x y : Nibble)
  /-- 8XY2 `AND Vx, Vy` (R75) -/
  | andReg (x y : Nibble)
  /-- 8XY3 `XOR Vx, Vy` (R76) -/
  | xorReg (x y : Nibble)
  /-- 8XY4 `ADD Vx, Vy` (R77) -/
  | addReg (x y : Nibble)
  /-- 8XY5 `SUB Vx, Vy` (R78) -/
  | subReg (x y : Nibble)
  /-- 8XY6 `SHR Vx, Vy` (R79); `y` is decoded and ignored (R44) -/
  | shr (x y : Nibble)
  /-- 8XY7 `SUBN Vx, Vy` (R80) -/
  | subnReg (x y : Nibble)
  /-- 8XYE `SHL Vx, Vy` (R81); `y` is decoded and ignored (R44) -/
  | shl (x y : Nibble)
  /-- 9XY0 `SNE Vx, Vy` (R67) -/
  | sneReg (x y : Nibble)
  /-- ANNN `LD I, NNN` (R83) -/
  | ldI (nnn : Imm12)
  /-- BNNN `JP V0, NNN` (R68) -/
  | jpV0 (nnn : Imm12)
  /-- CXNN `RND Vx, NN` (R82) -/
  | rnd (x : Nibble) (nn : Byte)
  /-- DXYN `DRW Vx, Vy, N` (R92) -/
  | drw (x y n : Nibble)
  /-- EX9E `SKP Vx` (R93) -/
  | skp (x : Nibble)
  /-- EXA1 `SKNP Vx` (R94) -/
  | sknp (x : Nibble)
  /-- FX07 `LD Vx, DT` (R95) -/
  | ldVxDT (x : Nibble)
  /-- FX0A `LD Vx, K` (R98) -/
  | ldVxK (x : Nibble)
  /-- FX15 `LD DT, Vx` (R96) -/
  | ldDTVx (x : Nibble)
  /-- FX18 `LD ST, Vx` (R97) -/
  | ldSTVx (x : Nibble)
  /-- FX1E `ADD I, Vx` (R84) -/
  | addIVx (x : Nibble)
  /-- FX29 `LD F, Vx` (R85) -/
  | ldFVx (x : Nibble)
  /-- FX33 `LD B, Vx` (R86) -/
  | ldBVx (x : Nibble)
  /-- FX55 `LD [I], Vx` (R87) -/
  | storeRegs (x : Nibble)
  /-- FX65 `LD Vx, [I]` (R88) -/
  | loadRegs (x : Nibble)
  deriving DecidableEq, Repr

end Sys2Proof
end

