-- ==== Sys2Proof/WellFormed.lean ====
section
/-! DEFINITION. Which operand numbers an instruction may hold (spec/30_encoding.md R40, R41): the
ranges of the four kinds of field. `Instr` gives each operand its field's own width, so these checks
hold of every term of `Instr` (log entry 28); they refuse a number that no field can hold. -/

namespace Sys2Proof

/-- A register index is the number of a 4-bit field (R40). -/
def regInRange (k : Nat) : Bool := k < 16

/-- `N` is an unsigned count 0..15 (R41). -/
def countInRange (k : Nat) : Bool := k ≤ 15

/-- `NN` is an unsigned byte (R41). -/
def byteInRange (k : Nat) : Bool := k ≤ 0xFF

/-- `NNN` is a 12-bit address (R40). -/
def addrInRange (k : Nat) : Bool := k ≤ 0xFFF

/-- Every operand lies in its field's range. -/
def Instr.WellFormed : Instr → Bool
  | .nop => true
  | .cls => true
  | .ret => true
  | .jp nnn => addrInRange nnn.toNat
  | .call nnn => addrInRange nnn.toNat
  | .seByte x nn => regInRange x.toNat && byteInRange nn.toNat
  | .sneByte x nn => regInRange x.toNat && byteInRange nn.toNat
  | .seReg x y => regInRange x.toNat && regInRange y.toNat
  | .ldByte x nn => regInRange x.toNat && byteInRange nn.toNat
  | .addByte x nn => regInRange x.toNat && byteInRange nn.toNat
  | .ldReg x y => regInRange x.toNat && regInRange y.toNat
  | .orReg x y => regInRange x.toNat && regInRange y.toNat
  | .andReg x y => regInRange x.toNat && regInRange y.toNat
  | .xorReg x y => regInRange x.toNat && regInRange y.toNat
  | .addReg x y => regInRange x.toNat && regInRange y.toNat
  | .subReg x y => regInRange x.toNat && regInRange y.toNat
  | .shr x y => regInRange x.toNat && regInRange y.toNat
  | .subnReg x y => regInRange x.toNat && regInRange y.toNat
  | .shl x y => regInRange x.toNat && regInRange y.toNat
  | .sneReg x y => regInRange x.toNat && regInRange y.toNat
  | .ldI nnn => addrInRange nnn.toNat
  | .jpV0 nnn => addrInRange nnn.toNat
  | .rnd x nn => regInRange x.toNat && byteInRange nn.toNat
  | .drw x y n => regInRange x.toNat && regInRange y.toNat && countInRange n.toNat
  | .skp x => regInRange x.toNat
  | .sknp x => regInRange x.toNat
  | .ldVxDT x => regInRange x.toNat
  | .ldVxK x => regInRange x.toNat
  | .ldDTVx x => regInRange x.toNat
  | .ldSTVx x => regInRange x.toNat
  | .addIVx x => regInRange x.toNat
  | .ldFVx x => regInRange x.toNat
  | .ldBVx x => regInRange x.toNat
  | .storeRegs x => regInRange x.toNat
  | .loadRegs x => regInRange x.toNat

end Sys2Proof
end

