-- ==== Sys2Proof/Decode.lean ====
section
/-! DEFINITION. Decoding and encoding (spec/30_encoding.md R39–R46): one 16-bit big-endian word per
instruction, four nibble fields, the opcode map of R42, and the listing spelling of R47. -/

namespace Sys2Proof

/-- Why a word or a byte string is no instruction. Safe: the machine takes the fault R43 names. -/
inductive DecodeError where
  /-- Raised by `decode` on a word that matches no row of R42 (R43). -/
  | invalidOpcode (op : Word)
  /-- Raised by `decodeBytes` on fewer than the two bytes of an opcode (R39). The machine itself
  always fetches both. -/
  | truncated
  deriving DecidableEq, Repr

/-! The fields of R40. -/

/-- digit1, `op[15:12]`. -/
def digit1 (op : Word) : Nibble := op.extractLsb' 12 4

/-- X, `op[11:8]`. -/
def fieldX (op : Word) : Nibble := op.extractLsb' 8 4

/-- Y, `op[7:4]`. -/
def fieldY (op : Word) : Nibble := op.extractLsb' 4 4

/-- N, `op[3:0]`. -/
def fieldN (op : Word) : Nibble := op.extractLsb' 0 4

/-- NN, `op[7:0]`. -/
def fieldNN (op : Word) : Byte := op.extractLsb' 0 8

/-- NNN, `op[11:0]`. -/
def fieldNNN (op : Word) : Imm12 := op.extractLsb' 0 12

/-- The two bytes of an opcode, big-endian: the byte at the lower address is bits 15:8 (R31). -/
def opcodeOfBytes (hi lo : Byte) : Word := (hi ++ lo : BitVec (8 + 8))

/-- The byte of an opcode stored at the lower address, bits 15:8 (R31). -/
def hiByte (op : Word) : Byte := op.extractLsb' 8 8

/-- The byte of an opcode stored at the higher address, bits 7:0 (R31). -/
def loByte (op : Word) : Byte := op.extractLsb' 0 8

/-! The opcode map of R42, by digit1 and then by the trailing nibbles. -/

/-- digit1 = 0: the three fixed words. -/
def decode0 (op : Word) : Except DecodeError Instr :=
  if op = 0x0000#16 then .ok .nop
  else if op = 0x00E0#16 then .ok .cls
  else if op = 0x00EE#16 then .ok .ret
  else .error (.invalidOpcode op)

/-- digit1 = 5: N must be 0. -/
def decode5 (op : Word) : Except DecodeError Instr :=
  if fieldN op = 0x0#4 then .ok (.seReg (fieldX op) (fieldY op))
  else .error (.invalidOpcode op)

/-- digit1 = 8: N selects the operation. -/
def decode8 (op : Word) : Except DecodeError Instr :=
  let x := fieldX op
  let y := fieldY op
  let n := fieldN op
  if n = 0x0#4 then .ok (.ldReg x y)
  else if n = 0x1#4 then .ok (.orReg x y)
  else if n = 0x2#4 then .ok (.andReg x y)
  else if n = 0x3#4 then .ok (.xorReg x y)
  else if n = 0x4#4 then .ok (.addReg x y)
  else if n = 0x5#4 then .ok (.subReg x y)
  else if n = 0x6#4 then .ok (.shr x y)
  else if n = 0x7#4 then .ok (.subnReg x y)
  else if n = 0xE#4 then .ok (.shl x y)
  else .error (.invalidOpcode op)

/-- digit1 = 9: N must be 0. -/
def decode9 (op : Word) : Except DecodeError Instr :=
  if fieldN op = 0x0#4 then .ok (.sneReg (fieldX op) (fieldY op))
  else .error (.invalidOpcode op)

/-- digit1 = E: NN selects the operation. -/
def decodeE (op : Word) : Except DecodeError Instr :=
  if fieldNN op = 0x9E#8 then .ok (.skp (fieldX op))
  else if fieldNN op = 0xA1#8 then .ok (.sknp (fieldX op))
  else .error (.invalidOpcode op)

/-- digit1 = F: NN selects the operation. -/
def decodeF (op : Word) : Except DecodeError Instr :=
  let x := fieldX op
  let nn := fieldNN op
  if nn = 0x07#8 then .ok (.ldVxDT x)
  else if nn = 0x0A#8 then .ok (.ldVxK x)
  else if nn = 0x15#8 then .ok (.ldDTVx x)
  else if nn = 0x18#8 then .ok (.ldSTVx x)
  else if nn = 0x1E#8 then .ok (.addIVx x)
  else if nn = 0x29#8 then .ok (.ldFVx x)
  else if nn = 0x33#8 then .ok (.ldBVx x)
  else if nn = 0x55#8 then .ok (.storeRegs x)
  else if nn = 0x65#8 then .ok (.loadRegs x)
  else .error (.invalidOpcode op)

/-- `Decode(op)` (R42, R43, R53): a pure function of the opcode, total, rejecting by name. -/
def decode (op : Word) : Except DecodeError Instr :=
  let d := digit1 op
  if d = 0x0#4 then decode0 op
  else if d = 0x1#4 then .ok (.jp (fieldNNN op))
  else if d = 0x2#4 then .ok (.call (fieldNNN op))
  else if d = 0x3#4 then .ok (.seByte (fieldX op) (fieldNN op))
  else if d = 0x4#4 then .ok (.sneByte (fieldX op) (fieldNN op))
  else if d = 0x5#4 then decode5 op
  else if d = 0x6#4 then .ok (.ldByte (fieldX op) (fieldNN op))
  else if d = 0x7#4 then .ok (.addByte (fieldX op) (fieldNN op))
  else if d = 0x8#4 then decode8 op
  else if d = 0x9#4 then decode9 op
  else if d = 0xA#4 then .ok (.ldI (fieldNNN op))
  else if d = 0xB#4 then .ok (.jpV0 (fieldNNN op))
  else if d = 0xC#4 then .ok (.rnd (fieldX op) (fieldNN op))
  else if d = 0xD#4 then .ok (.drw (fieldX op) (fieldY op) (fieldN op))
  else if d = 0xE#4 then decodeE op
  else decodeF op

/-- The decoder on bytes as they lie in memory: one opcode and the bytes after it (R39, R46). -/
def decodeBytes : List Byte → Except DecodeError (Instr × List Byte)
  | hi :: lo :: rest =>
    match decode (opcodeOfBytes hi lo) with
    | .ok i => .ok (i, rest)
    | .error e => .error e
  | _ => .error .truncated

/-- The opcode of the first `nbits` bits of `w`, numbered as spec/opcode_table.json numbers them,
every bit above them 0. The core's only instruction length is one 16-bit word (R39). -/
def tableOpcode (nbits w : Nat) : Word := BitVec.ofNat 16 (w % 2 ^ nbits)

/-- The instruction the decoder reads from an instruction of the table's bits `w`: laid out high
byte first (R31) and decoded. -/
def decodeTableWord (nbits w : Nat) : Option Instr :=
  match decodeBytes [hiByte (tableOpcode nbits w), loByte (tableOpcode nbits w)] with
  | .ok (i, _) => some i
  | .error _ => none

/-! The encoder, from the bit layouts of R40. -/

/-- XYN form: `digit1 X Y N`. -/
def formXYN (d x y n : Nibble) : Word := (d ++ x ++ y ++ n : BitVec (4 + 4 + 4 + 4))

/-- XNN form: `digit1 X NN`. -/
def formXNN (d x : Nibble) (nn : Byte) : Word := (d ++ x ++ nn : BitVec (4 + 4 + 8))

/-- NNN form: `digit1 NNN`. -/
def formNNN (d : Nibble) (nnn : Imm12) : Word := (d ++ nnn : BitVec (4 + 12))

/-- The word of an instruction (R40, R42). -/
def encode : Instr → Word
  | .nop => 0x0000#16
  | .cls => 0x00E0#16
  | .ret => 0x00EE#16
  | .jp nnn => formNNN 0x1#4 nnn
  | .call nnn => formNNN 0x2#4 nnn
  | .seByte x nn => formXNN 0x3#4 x nn
  | .sneByte x nn => formXNN 0x4#4 x nn
  | .seReg x y => formXYN 0x5#4 x y 0x0#4
  | .ldByte x nn => formXNN 0x6#4 x nn
  | .addByte x nn => formXNN 0x7#4 x nn
  | .ldReg x y => formXYN 0x8#4 x y 0x0#4
  | .orReg x y => formXYN 0x8#4 x y 0x1#4
  | .andReg x y => formXYN 0x8#4 x y 0x2#4
  | .xorReg x y => formXYN 0x8#4 x y 0x3#4
  | .addReg x y => formXYN 0x8#4 x y 0x4#4
  | .subReg x y => formXYN 0x8#4 x y 0x5#4
  | .shr x y => formXYN 0x8#4 x y 0x6#4
  | .subnReg x y => formXYN 0x8#4 x y 0x7#4
  | .shl x y => formXYN 0x8#4 x y 0xE#4
  | .sneReg x y => formXYN 0x9#4 x y 0x0#4
  | .ldI nnn => formNNN 0xA#4 nnn
  | .jpV0 nnn => formNNN 0xB#4 nnn
  | .rnd x nn => formXNN 0xC#4 x nn
  | .drw x y n => formXYN 0xD#4 x y n
  | .skp x => formXNN 0xE#4 x 0x9E#8
  | .sknp x => formXNN 0xE#4 x 0xA1#8
  | .ldVxDT x => formXNN 0xF#4 x 0x07#8
  | .ldVxK x => formXNN 0xF#4 x 0x0A#8
  | .ldDTVx x => formXNN 0xF#4 x 0x15#8
  | .ldSTVx x => formXNN 0xF#4 x 0x18#8
  | .addIVx x => formXNN 0xF#4 x 0x1E#8
  | .ldFVx x => formXNN 0xF#4 x 0x29#8
  | .ldBVx x => formXNN 0xF#4 x 0x33#8
  | .storeRegs x => formXNN 0xF#4 x 0x55#8
  | .loadRegs x => formXNN 0xF#4 x 0x65#8

/-- The mask of an instruction's row in spec/opcode_table.json: its fixed bits. -/
def rowMask : Instr → Word
  | .nop => 0xFFFF#16
  | .cls => 0xFFFF#16
  | .ret => 0xFFFF#16
  | .jp _ => 0xF000#16
  | .call _ => 0xF000#16
  | .seByte _ _ => 0xF000#16
  | .sneByte _ _ => 0xF000#16
  | .seReg _ _ => 0xF00F#16
  | .ldByte _ _ => 0xF000#16
  | .addByte _ _ => 0xF000#16
  | .ldReg _ _ => 0xF00F#16
  | .orReg _ _ => 0xF00F#16
  | .andReg _ _ => 0xF00F#16
  | .xorReg _ _ => 0xF00F#16
  | .addReg _ _ => 0xF00F#16
  | .subReg _ _ => 0xF00F#16
  | .shr _ _ => 0xF00F#16
  | .subnReg _ _ => 0xF00F#16
  | .shl _ _ => 0xF00F#16
  | .sneReg _ _ => 0xF00F#16
  | .ldI _ => 0xF000#16
  | .jpV0 _ => 0xF000#16
  | .rnd _ _ => 0xF000#16
  | .drw _ _ _ => 0xF000#16
  | .skp _ => 0xF0FF#16
  | .sknp _ => 0xF0FF#16
  | .ldVxDT _ => 0xF0FF#16
  | .ldVxK _ => 0xF0FF#16
  | .ldDTVx _ => 0xF0FF#16
  | .ldSTVx _ => 0xF0FF#16
  | .addIVx _ => 0xF0FF#16
  | .ldFVx _ => 0xF0FF#16
  | .ldBVx _ => 0xF0FF#16
  | .storeRegs _ => 0xF0FF#16
  | .loadRegs _ => 0xF0FF#16

/-- The match value of an instruction's row in spec/opcode_table.json. -/
def rowMatch : Instr → Word
  | .nop => 0x0000#16
  | .cls => 0x00E0#16
  | .ret => 0x00EE#16
  | .jp _ => 0x1000#16
  | .call _ => 0x2000#16
  | .seByte _ _ => 0x3000#16
  | .sneByte _ _ => 0x4000#16
  | .seReg _ _ => 0x5000#16
  | .ldByte _ _ => 0x6000#16
  | .addByte _ _ => 0x7000#16
  | .ldReg _ _ => 0x8000#16
  | .orReg _ _ => 0x8001#16
  | .andReg _ _ => 0x8002#16
  | .xorReg _ _ => 0x8003#16
  | .addReg _ _ => 0x8004#16
  | .subReg _ _ => 0x8005#16
  | .shr _ _ => 0x8006#16
  | .subnReg _ _ => 0x8007#16
  | .shl _ _ => 0x800E#16
  | .sneReg _ _ => 0x9000#16
  | .ldI _ => 0xA000#16
  | .jpV0 _ => 0xB000#16
  | .rnd _ _ => 0xC000#16
  | .drw _ _ _ => 0xD000#16
  | .skp _ => 0xE09E#16
  | .sknp _ => 0xE0A1#16
  | .ldVxDT _ => 0xF007#16
  | .ldVxK _ => 0xF00A#16
  | .ldDTVx _ => 0xF015#16
  | .ldSTVx _ => 0xF018#16
  | .addIVx _ => 0xF01E#16
  | .ldFVx _ => 0xF029#16
  | .ldBVx _ => 0xF033#16
  | .storeRegs _ => 0xF055#16
  | .loadRegs _ => 0xF065#16

/-! The listing spelling of R47. PRESUMED (log entry 25): conventional mnemonics, no rule of the
semantics depends on them (R10). -/

/-- One hexadecimal digit. -/
def hexDigit (d : Nibble) : String :=
  ["0", "1", "2", "3", "4", "5", "6", "7", "8", "9", "A", "B", "C", "D", "E", "F"].getD d.toNat ""

/-- A byte as two hexadecimal digits. -/
def hexByte (b : Byte) : String := hexDigit (b.extractLsb' 4 4) ++ hexDigit (b.extractLsb' 0 4)

/-- An address immediate as three hexadecimal digits. -/
def hexImm12 (a : Imm12) : String :=
  hexDigit (a.extractLsb' 8 4) ++ hexDigit (a.extractLsb' 4 4) ++ hexDigit (a.extractLsb' 0 4)

/-- A register operand, `V0` to `VF`. -/
def regName (x : Nibble) : String := "V" ++ hexDigit x

/-- An instruction as R47 writes it. -/
def Instr.spelling : Instr → String
  | .nop => "NOP"
  | .cls => "CLS"
  | .ret => "RET"
  | .jp nnn => "JP " ++ hexImm12 nnn
  | .call nnn => "CALL " ++ hexImm12 nnn
  | .seByte x nn => "SE " ++ regName x ++ ", " ++ hexByte nn
  | .sneByte x nn => "SNE " ++ regName x ++ ", " ++ hexByte nn
  | .seReg x y => "SE " ++ regName x ++ ", " ++ regName y
  | .ldByte x nn => "LD " ++ regName x ++ ", " ++ hexByte nn
  | .addByte x nn => "ADD " ++ regName x ++ ", " ++ hexByte nn
  | .ldReg x y => "LD " ++ regName x ++ ", " ++ regName y
  | .orReg x y => "OR " ++ regName x ++ ", " ++ regName y
  | .andReg x y => "AND " ++ regName x ++ ", " ++ regName y
  | .xorReg x y => "XOR " ++ regName x ++ ", " ++ regName y
  | .addReg x y => "ADD " ++ regName x ++ ", " ++ regName y
  | .subReg x y => "SUB " ++ regName x ++ ", " ++ regName y
  | .shr x y => "SHR " ++ regName x ++ ", " ++ regName y
  | .subnReg x y => "SUBN " ++ regName x ++ ", " ++ regName y
  | .shl x y => "SHL " ++ regName x ++ ", " ++ regName y
  | .sneReg x y => "SNE " ++ regName x ++ ", " ++ regName y
  | .ldI nnn => "LD I, " ++ hexImm12 nnn
  | .jpV0 nnn => "JP V0, " ++ hexImm12 nnn
  | .rnd x nn => "RND " ++ regName x ++ ", " ++ hexByte nn
  | .drw x y n => "DRW " ++ regName x ++ ", " ++ regName y ++ ", " ++ hexDigit n
  | .skp x => "SKP " ++ regName x
  | .sknp x => "SKNP " ++ regName x
  | .ldVxDT x => "LD " ++ regName x ++ ", DT"
  | .ldVxK x => "LD " ++ regName x ++ ", K"
  | .ldDTVx x => "LD DT, " ++ regName x
  | .ldSTVx x => "LD ST, " ++ regName x
  | .addIVx x => "ADD I, " ++ regName x
  | .ldFVx x => "LD F, " ++ regName x
  | .ldBVx x => "LD B, " ++ regName x
  | .storeRegs x => "LD [I], " ++ regName x
  | .loadRegs x => "LD " ++ regName x ++ ", [I]"

end Sys2Proof
end

