-- ==== Sys2Proof/Config.lean ====
section
/-! DEFINITION. The implementation parameters of spec/00_scope.md R4, and the named parameters R5
leaves open, as constants with no body. -/

namespace Sys2Proof

/-- `MEM_SIZE` (R4): the memory has byte addresses 0x000 to 0xFFF. -/
@[simp] abbrev Config.memSize : Nat := 4096

/-- `PROG_START` (R4): where Load copies a program, and the reset value of PC. -/
@[simp] abbrev Config.progStart : Nat := 0x200

/-- `STACK_DEPTH` (R4): return addresses the call stack holds. -/
@[simp] abbrev Config.stackDepth : Nat := 16

/-- `NUM_KEYS` (R4). -/
@[simp] abbrev Config.numKeys : Nat := 16

/-- `SCREEN_W` (R4). -/
@[simp] abbrev Config.screenW : Nat := 64

/-- `SCREEN_H` (R4). -/
@[simp] abbrev Config.screenH : Nat := 32

/-- `MAX_ROM` (R4): the longest program Load accepts, 4096 − 0x200 bytes. -/
@[simp] abbrev Config.maxRom : Nat := 3584

/-- The size of the font region 0x000–0x04F: 16 glyphs of 5 bytes (R4, R29). -/
@[simp] abbrev Config.fontSize : Nat := 80

/-- The parameter `FONT` (R5, R29, D12): the byte the reset installs at address `k`, for `k < 80`.
DESIGN CHOICE, safe (log entry 3): the spec gives no byte, so this constant has no body and every
claim holds for every font. -/
opaque Config.font : Nat → Byte

/-- The parameter `RAND` (R5, R82, D17): the `n`-th random byte drawn.
DESIGN CHOICE, safe (log entry 4): a free byte at each draw, under no law. -/
opaque Config.rand : Nat → Byte

/-- The conventional font R29 offers as the default instance of `FONT`.
PRESUMED (log entry 3): from general knowledge, never assumed by the machine, only named as a premise. -/
def Config.defaultFont : List Byte :=
  [0xF0, 0x90, 0x90, 0x90, 0xF0] ++ [0x20, 0x60, 0x20, 0x20, 0x70] ++
  [0xF0, 0x10, 0xF0, 0x80, 0xF0] ++ [0xF0, 0x10, 0xF0, 0x10, 0xF0] ++
  [0x90, 0x90, 0xF0, 0x10, 0x10] ++ [0xF0, 0x80, 0xF0, 0x10, 0xF0] ++
  [0xF0, 0x80, 0xF0, 0x90, 0xF0] ++ [0xF0, 0x10, 0x20, 0x40, 0x40] ++
  [0xF0, 0x90, 0xF0, 0x90, 0xF0] ++ [0xF0, 0x90, 0xF0, 0x10, 0xF0] ++
  [0xF0, 0x90, 0xF0, 0x90, 0x90] ++ [0xE0, 0x90, 0xE0, 0x90, 0xE0] ++
  [0xF0, 0x80, 0x80, 0x80, 0xF0] ++ [0xE0, 0x90, 0x90, 0x90, 0xE0] ++
  [0xF0, 0x80, 0xF0, 0x80, 0xF0] ++ [0xF0, 0x80, 0xF0, 0x80, 0x80]

/-- The premise "FONT default" of spec/95_test_vectors.md. -/
def Config.FontIsDefault : Prop :=
  ∀ k, k < Config.fontSize → Config.font k = Config.defaultFont.getD k 0

end Sys2Proof
end

