-- ==== Sys2Proof/Machine/State.lean ====
section
/-! DEFINITION. The architectural state (spec/10_state.md R11–R23), the fault records
(spec/60_exceptions.md R99) and the state after reset (spec/70_reset_and_hazards.md R117, R118). -/

namespace Sys2Proof.Machine

/-- A fault record (R99). A cycle that raises one ends in a NEXT state whose `status` is
`halted` with the record (R102); a Step of a core halted so answers the record as its fault (R50;
log entry 1). -/
inductive Fault where
  /-- Raised by decode of a word outside the 35 patterns (R43). Safe: the spec names the fault. -/
  | invalidOpcode (op : Word)
  /-- Raised by fetch, DXYN, FX33, FX55 and FX65 at the first address `a ≥ 4096` (R25, R26, R51).
  Safe: the spec names the fault. -/
  | memoryOutOfBounds (a : Nat)
  /-- Raised by 2NNN with SP = 16 (R63). Safe: the spec names the fault. -/
  | stackOverflow
  /-- Raised by 00EE with SP = 0 (R61). Safe: the spec names the fault. -/
  | stackUnderflow
  /-- Raised by EX9E and EXA1 with VX > 15 (R93, R94; the spec's decision D5). Safe: the model
  stops where other hardware might go on. -/
  | keyIndexOutOfRange (k : Byte)
  /-- Raised by FX1E when I + VX > 0xFFFF (R84; the spec's decision D6). Safe: the model stops where
  other hardware might wrap. -/
  | indexOverflow (sum : Nat)
  /-- Raised by the Load event, never by a cycle, for more than 3584 bytes (R113). Safe: the spec
  names the fault. -/
  | romTooLarge (len : Nat)
  deriving DecidableEq, Repr

/-- Why the model gives an instruction no meaning. -/
inductive Refusal where
  /-- Raised by an arm of `exec` whose instruction has no meaning yet. Safe: the model stops.
  Every instruction of this model has its meaning, so nothing raises it. -/
  | notModelled (mnemonic : String)
  deriving DecidableEq, Repr

/-- The run status (R21). -/
inductive RunStatus where
  /-- Cycles execute. -/
  | running
  /-- A fault has halted the core; only the Reset event returns it to `running`. -/
  | halted (f : Fault)
  deriving DecidableEq, Repr

/-- Memory as a list of cells: addresses strictly rising, no cell equal to what an unlisted
address reads as (`Memory.unlisted`). -/
abbrev Memory := List Host.Cell

/-- The framebuffer (R20): 32 rows of 64 columns, `true` meaning lit. -/
abbrev Screen := Vector (Vector Bool Config.screenW) Config.screenH

/-- The architectural state, exactly the tuple of R11, and `draws`, the model's own counter. -/
structure State where
  /-- V0 to VF (R12); `v[15]` is also the flag register VF (R13) -/
  v : Vector Byte 16
  /-- the index register I (R14) -/
  i : Word
  /-- the program counter (R15) -/
  pc : Word
  /-- SP, the number of stack entries in use, 0 to 16 (R16) -/
  sp : Fin 17
  /-- the call stack (R16) -/
  stack : Vector Word 16
  /-- the delay timer DT (R17) -/
  dt : Byte
  /-- the sound timer ST (R18) -/
  st : Byte
  /-- the keypad flags, `true` while the key is pressed (R19) -/
  key : Vector Bool 16
  /-- the framebuffer (R20) -/
  screen : Screen
  /-- the 4096-byte memory (R24) -/
  mem : Memory
  /-- the run status (R21) -/
  status : RunStatus
  /-- THE MODEL'S OWN field, not the spec's: how many random bytes CXNN has drawn (R82, D17).
  DESIGN CHOICE, safe (log entry 4): it selects the next free byte of `Config.rand`. -/
  draws : Nat
  deriving DecidableEq, Repr

/-- The machine right after the first Reset (R117, R118): memory lists nothing, so it reads as the
font and zeros (`Memory.unlisted`). `draws` starts at 0, a DESIGN CHOICE (log entry 4). -/
def State.reset : State where
  v := Vector.replicate 16 0#8
  i := 0#16
  pc := 0x200#16
  sp := 0
  stack := Vector.replicate 16 0#16
  dt := 0#8
  st := 0#8
  key := Vector.replicate 16 false
  screen := Vector.replicate 32 (Vector.replicate 64 false)
  mem := []
  status := .running
  draws := 0

end Sys2Proof.Machine
end

