-- ==== Sys2Proof/Machine/Ops.lean ====
section
/-! DEFINITION. The named operations over memory, registers, stack, keys and framebuffer; one cycle
with its all-or-nothing rule; TAKING A FAULT, and the Reset that is its only way back; the fetch. -/

namespace Sys2Proof.Machine

/-! ## Memory as data (spec/20_memory.md R24, R28, R29) -/

/-- What an address nothing has written reads as: the reset contents, the font below 0x050 and zero
above (R118). DEDUCED (log entry 8): the spec's own decision D13 zeroes memory at reset. -/
def Memory.unlisted (a : Nat) : Byte := if a < Config.fontSize then Config.font a else 0#8

/-- The byte at an address. -/
def Memory.read : Memory → Nat → Byte
  | [], a => Memory.unlisted a
  | (b, w) :: rest, a => if b = a then w else Memory.read rest a

/-- Without any cell at address `a`. -/
def Memory.erase : Memory → Nat → Memory
  | [], _ => []
  | (b, w) :: rest, a => if b = a then Memory.erase rest a else (b, w) :: Memory.erase rest a

/-- With the cell `(a, v)` put before the first cell of a higher address. -/
def Memory.insert : Memory → Nat → Byte → Memory
  | [], a, v => [(a, v)]
  | (b, w) :: rest, a, v =>
    if a < b then (a, v) :: (b, w) :: rest else (b, w) :: Memory.insert rest a v

/-- Memory with byte `v` at address `a`, in the canonical form: a byte equal to what an unlisted
address reads as is not listed. -/
def Memory.write (m : Memory) (a : Nat) (v : Byte) : Memory :=
  if v = Memory.unlisted a then m.erase a else (m.erase a).insert a v

/-- The canonical form: addresses strictly rising, all below 4096, and no cell equal to what an
unlisted address reads as. -/
abbrev Memory.wf (m : Memory) : Prop :=
  m.Pairwise (fun c d => c.1 < d.1) ∧
    ∀ c ∈ m, c.1 < Config.memSize ∧ c.2 ≠ Memory.unlisted c.1

/-! ## Registers and flags held as state (spec/10_state.md R12–R20) -/

/-- `V[x]` (R12). -/
def State.getV (s : State) (x : Nibble) : Byte := s.v[x.toNat]'x.isLt

/-- `V[x] <- b` (R12): no register is hardwired. -/
def State.setV (s : State) (x : Nibble) (b : Byte) : State :=
  { s with v := s.v.set x.toNat b x.isLt }

/-- VF, register 15, the flag register (R13). -/
def vf : Nibble := 0xF#4

/-- `I <- w` (R14). -/
def State.setI (s : State) (w : Word) : State := { s with i := w }

/-- `pc <- w` (R15). -/
def State.setPc (s : State) (w : Word) : State := { s with pc := w }

/-- `DT <- b` (R17). -/
def State.setDt (s : State) (b : Byte) : State := { s with dt := b }

/-- `ST <- b` (R18). -/
def State.setSt (s : State) (b : Byte) : State := { s with st := b }

/-- `stack[k]` (R16). -/
def State.getStack (s : State) (k : Fin 16) : Word := s.stack[k.val]'k.isLt

/-- `key[k]` (R19). -/
def State.getKey (s : State) (k : Nibble) : Bool := s.key[k.toNat]'k.isLt

/-- `key[k] <- pressed` (R19, R109). -/
def State.setKeyFlag (s : State) (k : Nibble) (pressed : Bool) : State :=
  { s with key := s.key.set k.toNat pressed k.isLt }

/-! ## Framebuffer (spec/10_state.md R20, spec/44_display.md R89)

Coordinates are unbounded numbers reduced modulo 64 and 32 here, in one place.
DEDUCED (log entry 14): the vertical modulus is the spec's decision D8. -/

/-- The pixel in column `x` and row `y`, wrapped (R89). -/
def Screen.pixel (scr : Screen) (x y : Nat) : Bool :=
  (scr[y % 32]'(Nat.mod_lt y (by decide)))[x % 64]'(Nat.mod_lt x (by decide))

/-- The framebuffer with the pixel in column `x` and row `y`, wrapped, inverted (R89, R92). -/
def Screen.flip (scr : Screen) (x y : Nat) : Screen :=
  scr.set (y % 32)
    ((scr[y % 32]'(Nat.mod_lt y (by decide))).set (x % 64) (!scr.pixel x y) (Nat.mod_lt x (by decide)))
    (Nat.mod_lt y (by decide))

/-- Every pixel false (R91). -/
def Screen.blank : Screen := Vector.replicate 32 (Vector.replicate 64 false)

/-! ## Memory accesses of the core (R25, R26, R33) -/

/-- `MemRead(a, 1)` at an unbounded address (R25, R27). -/
def memRead (s : State) (a : Nat) : Except Fault Byte :=
  if Config.memSize ≤ a then .error (.memoryOutOfBounds a) else .ok (s.mem.read a)

/-- `MemWrite(a, 1, v)` at an unbounded address (R26, R27, R30). -/
def memWrite (s : State) (a : Nat) (v : Byte) : Except Fault State :=
  if Config.memSize ≤ a then .error (.memoryOutOfBounds a)
  else .ok { s with mem := s.mem.write a v }

/-- `n` bytes read from `a` on, in ascending order (R33). -/
def readBytes (s : State) : Nat → Nat → Except Fault (List Byte)
  | _, 0 => .ok []
  | a, n + 1 =>
    match memRead s a with
    | .error f => .error f
    | .ok b =>
      match readBytes s (a + 1) n with
      | .error f => .error f
      | .ok bs => .ok (b :: bs)

/-- Bytes written from `a` on, in ascending order (R33). -/
def writeBytes : State → Nat → List Byte → Except Fault State
  | s, _, [] => .ok s
  | s, a, b :: bs =>
    match memWrite s a b with
    | .error f => .error f
    | .ok t => writeBytes t (a + 1) bs

/-- Registers loaded from `V[k]` on, in ascending order (R88). -/
def setRegs : State → Nat → List Byte → State
  | s, _, [] => s
  | s, k, b :: bs => setRegs (s.setV (BitVec.ofNat 4 k) b) (k + 1) bs

/-! ## Call stack (R16, R61, R63) -/

/-- CALL's push: the return address into `stack[SP]`, then SP one up (R16, R63). -/
def pushReturn (s : State) (ret : Word) : Except Fault State :=
  if h : s.sp.val < 16 then
    .ok { s with stack := s.stack.set s.sp.val ret h, sp := ⟨s.sp.val + 1, by omega⟩ }
  else .error .stackOverflow

/-- RET's pop: SP one down, then `stack[SP]`, which keeps its value (R16, R61). -/
def popReturn (s : State) : Except Fault (Word × State) :=
  if h : 0 < s.sp.val then
    .ok (s.stack[s.sp.val - 1]'(by omega), { s with sp := ⟨s.sp.val - 1, by omega⟩ })
  else .error .stackUnderflow

/-! ## Free draws (R5, R82) -/

/-- `RAND()`: the next free byte, and the state after the draw. -/
def drawByte (s : State) : Byte × State := (Config.rand s.draws, { s with draws := s.draws + 1 })

/-! ## Keypad scan (R98) -/

/-- The least index of a pressed key. -/
def leastPressed (s : State) : Option Nibble :=
  ((List.range 16).map (BitVec.ofNat 4)).find? s.getKey

/-! ## One cycle, taking a fault, and Reset (spec/40_cycle.md, spec/60_exceptions.md) -/

/-- The state as the fetch left it: PC advanced by 2 before the instruction executes (R52). -/
def fetched (s : State) : State := { s with pc := s.pc + 2#16 }

/-- TAKING A FAULT (R55, R102). `s` is the state before the cycle: the cycle leaves it as it was, with
PC at the faulting instruction, and only `status` becomes `Halted(f)`. No register is saved, no mode
changes and no handler runs. -/
def takeFault (f : Fault) (s : State) : State := { s with status := .halted f }

/-- The only return from a fault, and the Reset event itself (R103, R117, R118): every piece of state
at its reset value, whatever the state was. The draw counter runs on, so that a draw after a Reset is
a fresh free byte (R82; DESIGN CHOICE, safe, log entry 4). -/
def resetCore (s : State) : State := { State.reset with draws := s.draws }

/-- One cycle of an instruction after its fetch and decode (R49, R54, R55), `s` the state before the
cycle: `body` is the instruction's rule, run on the state the fetch left; a raised fault undoes
everything and halts the core. -/
def runCycle (s : State) (body : State → Except Fault State) : Host.Outcome State Fault Refusal :=
  match body (fetched s) with
  | .ok t => .next t
  | .error f => .next (takeFault f s)

/-- The fetch (R31, R51): the bytes at PC and PC + 1, big-endian, the first out-of-range address
reported. -/
def fetch (s : State) : Except Fault Word :=
  match memRead s s.pc.toNat with
  | .error f => .error f
  | .ok hi =>
    match memRead s (s.pc.toNat + 1) with
    | .error f => .error f
    | .ok lo => .ok (opcodeOfBytes hi lo)

/-- The cycle of a word that is no instruction (R43, R53): `InvalidOpcode(op)` halts the core. -/
def invalidCycle (s : State) (op : Word) : Host.Outcome State Fault Refusal :=
  runCycle s fun _ => .error (.invalidOpcode op)

/-- The cycle whose fetch faulted (R51). -/
def fetchFaultCycle (s : State) (f : Fault) : Host.Outcome State Fault Refusal :=
  runCycle s fun _ => .error f

/-! ## Placing an instruction where the next fetch reads it -/

/-- Where a fetch can be made from: PC itself when both bytes at it exist (R51), else the reset
vector (log entry 7). -/
def fetchablePc (pc : Word) : Word := if pc.toNat ≤ 0xFFE then pc else 0x200#16

/-- The word `op` stored where the next Step fetches, high byte first (R31), in a core that runs
(log entries 6, 7). -/
def placeWord (s : State) (op : Word) : State :=
  let pc := fetchablePc s.pc
  { s with
    pc := pc
    status := .running
    mem := (s.mem.write pc.toNat (hiByte op)).write (pc.toNat + 1) (loByte op) }

end Sys2Proof.Machine
end

