-- ==== Sys2Proof/Machine/Flags.lean ====
section
/-! DEFINITION. The flag computations (spec/42_alu.md R70) and the one order in which a result and
its flag are written (spec/40_cycle.md R57). -/

namespace Sys2Proof.Machine

/-- A flag value, 0 or 1 (R13). -/
def flagByte (c : Bool) : Byte := if c then 1#8 else 0#8

/-- The carry of `a + b`: the unbounded sum exceeds 255 (R70, R77). -/
def carryOf (a b : Byte) : Byte := flagByte (decide (a.toNat + b.toNat > 255))

/-- NOT borrow of `a - b`: `a >= b` (R70, R78, R80). -/
def noBorrowOf (a b : Byte) : Byte := flagByte (decide (a.toNat ≥ b.toNat))

/-- The bit SHR shifts out, `a[0]` (R79). -/
def shrOut (a : Byte) : Byte := flagByte (a.getLsbD 0)

/-- The bit SHL shifts out, `a[7]` (R81). -/
def shlOut (a : Byte) : Byte := flagByte (a.getLsbD 7)

/-- `V[0xF] <- flag`. -/
def setFlag (s : State) (flag : Byte) : State := s.setV vf flag

/-- The result into `V[x]`, then the flag into VF, so the flag is the final value of VF when x = F.
DEDUCED (log entry 16): the spec's decision D10 (R57, conflict C3). -/
def setResultAndFlag (s : State) (x : Nibble) (result flag : Byte) : State :=
  setFlag (s.setV x result) flag

end Sys2Proof.Machine
end

