-- ==== Sys2Proof/Machine/Operands.lean ====
section
/-! DEFINITION. The operand forms (spec/30_encoding.md R41): register contents, byte and address
immediates, I-relative addresses, key indices, digits, glyph addresses, sprites. -/

namespace Sys2Proof.Machine

/-- `zext_16(NNN)` (R7, R41): an address immediate as a PC or I value. -/
def addrOf (nnn : Imm12) : Word := nnn.setWidth 16

/-- `zext_16(V[x])` (R7): a register as a 16-bit offset. -/
def wideOf (b : Byte) : Word := b.setWidth 16

/-- `I + k`, unbounded (R27). -/
def indexAddr (s : State) (k : Nat) : Nat := s.i.toNat + k

/-- The key index a register holds (R93, R94): a value above 15 faults.
DEDUCED, safe (log entry 12): the spec's decision D5. -/
def keyOperand (b : Byte) : Except Fault Nibble :=
  if b.toNat > 15 then .error (.keyIndexOutOfRange b) else .ok (b.setWidth 4)

/-- The BCD digits of a byte: hundreds, tens, ones (R86). -/
def bcdDigits (b : Byte) : List Byte :=
  [BitVec.ofNat 8 (b.toNat / 100), BitVec.ofNat 8 (b.toNat / 10 % 10), BitVec.ofNat 8 (b.toNat % 10)]

/-- The font glyph address `VX * 5`, of the whole byte (R85). -/
def glyphAddr (b : Byte) : Word := BitVec.ofNat 16 (b.toNat * 5)

/-- V0 to VX inclusive, ascending (R87). -/
def regsUpTo (s : State) (x : Nibble) : List Byte :=
  (List.range (x.toNat + 1)).map fun k => s.getV (BitVec.ofNat 4 k)

/-- A skip when `c` holds: 2 more on top of the fetch's advance (R59). -/
def skipIf (c : Bool) (s : State) : State := if c then s.setPc (s.pc + 2#16) else s

/-! ## Sprites (R89, R90, R92). PRESUMED (log entry 15): bit 7 of a row byte is its leftmost pixel,
the spec's decision D9. -/

/-- A framebuffer being drawn on, and whether a pixel was erased so far. -/
abbrev Drawing := Screen × Bool

/-- One sprite bit sent to column `x`, row `y`: a set bit inverts the pixel, and erases it if lit. -/
def drawBit (d : Drawing) (x y : Nat) (bit : Bool) : Drawing :=
  if bit then (d.1.flip x y, d.2 || d.1.pixel x y) else d

/-- One row byte drawn from column `x` of row `y`, columns 0 to 7, column `c` being bit `7 - c`. -/
def drawRow (d : Drawing) (x y : Nat) (row : Byte) : Drawing :=
  (List.range 8).foldl (fun d c => drawBit d (x + c) y (row.getLsbD (7 - c))) d

/-- The row bytes drawn from row `y` down. -/
def drawRows : Drawing → Nat → Nat → List Byte → Drawing
  | d, _, _, [] => d
  | d, x, y, row :: rows => drawRows (drawRow d x y row) x (y + 1) rows

end Sys2Proof.Machine
end

