-- ==== Sys2Proof/Machine/Alu.lean ====
section
/-! DEFINITION. Loads, arithmetic, logic, shifts, random (spec/42_alu.md R70–R82). Arithmetic on
`Byte` is modulo 256 (R7, R70). -/

namespace Sys2Proof.Machine

/-- `LD Vx, NN` (R71). -/
def execLdByte (x : Nibble) (nn : Byte) (s : State) : Host.Outcome State Fault Refusal :=
  runCycle s fun t => .ok (t.setV x nn)

/-- `ADD Vx, NN` (R72): VF is not written. -/
def execAddByte (x : Nibble) (nn : Byte) (s : State) : Host.Outcome State Fault Refusal :=
  runCycle s fun t => .ok (t.setV x (t.getV x + nn))

/-- `LD Vx, Vy` (R73). -/
def execLdReg (x y : Nibble) (s : State) : Host.Outcome State Fault Refusal :=
  runCycle s fun t => .ok (t.setV x (t.getV y))

/-- `OR Vx, Vy` (R74): VF is not written. -/
def execOrReg (x y : Nibble) (s : State) : Host.Outcome State Fault Refusal :=
  runCycle s fun t => .ok (t.setV x (t.getV x ||| t.getV y))

/-- `AND Vx, Vy` (R75): VF is not written. -/
def execAndReg (x y : Nibble) (s : State) : Host.Outcome State Fault Refusal :=
  runCycle s fun t => .ok (t.setV x (t.getV x &&& t.getV y))

/-- `XOR Vx, Vy` (R76): VF is not written. -/
def execXorReg (x y : Nibble) (s : State) : Host.Outcome State Fault Refusal :=
  runCycle s fun t => .ok (t.setV x (t.getV x ^^^ t.getV y))

/-- `ADD Vx, Vy` (R77). -/
def execAddReg (x y : Nibble) (s : State) : Host.Outcome State Fault Refusal :=
  runCycle s fun t =>
    let a := t.getV x
    let b := t.getV y
    .ok (setResultAndFlag t x (a + b) (carryOf a b))

/-- `SUB Vx, Vy` (R78). -/
def execSubReg (x y : Nibble) (s : State) : Host.Outcome State Fault Refusal :=
  runCycle s fun t =>
    let a := t.getV x
    let b := t.getV y
    .ok (setResultAndFlag t x (a - b) (noBorrowOf a b))

/-- `SHR Vx, Vy` (R79): Y is decoded and ignored (R44). -/
def execShr (x _y : Nibble) (s : State) : Host.Outcome State Fault Refusal :=
  runCycle s fun t =>
    let a := t.getV x
    .ok (setResultAndFlag t x (a >>> 1) (shrOut a))

/-- `SUBN Vx, Vy` (R80). -/
def execSubnReg (x y : Nibble) (s : State) : Host.Outcome State Fault Refusal :=
  runCycle s fun t =>
    let a := t.getV x
    let b := t.getV y
    .ok (setResultAndFlag t x (b - a) (noBorrowOf b a))

/-- `SHL Vx, Vy` (R81): Y is decoded and ignored (R44). -/
def execShl (x _y : Nibble) (s : State) : Host.Outcome State Fault Refusal :=
  runCycle s fun t =>
    let a := t.getV x
    .ok (setResultAndFlag t x (a <<< 1) (shlOut a))

/-- `RND Vx, NN` (R82). DESIGN CHOICE, safe (log entry 4): the byte drawn is a free value. -/
def execRnd (x : Nibble) (nn : Byte) (s : State) : Host.Outcome State Fault Refusal :=
  runCycle s fun t =>
    let (r, u) := drawByte t
    .ok (u.setV x (r &&& nn))

end Sys2Proof.Machine
end

