-- ==== Sys2Proof/Machine/Display.lean ====
section
/-! DEFINITION. The framebuffer XOR engine (spec/44_display.md R89–R92). -/

namespace Sys2Proof.Machine

/-- `CLS` (R91): VF is not written. -/
def execCls (s : State) : Host.Outcome State Fault Refusal :=
  runCycle s fun t => .ok { t with screen := Screen.blank }

/-- `DRW Vx, Vy, N` (R92): the rows are read first, so nothing is drawn when a read faults; the origin
is VX, VY before VF is overwritten. -/
def execDrw (x y n : Nibble) (s : State) : Host.Outcome State Fault Refusal :=
  runCycle s fun t =>
    match readBytes t (indexAddr t 0) n.toNat with
    | .error f => .error f
    | .ok rows =>
      let d := drawRows (t.screen, false) (t.getV x).toNat (t.getV y).toNat rows
      .ok (setFlag { t with screen := d.1 } (flagByte d.2))

end Sys2Proof.Machine
end

