-- ==== Sys2Proof/Machine/Flow.lean ====
section
/-! DEFINITION. Control flow, call stack and skips (spec/41_flow.md R59–R68). -/

namespace Sys2Proof.Machine

/-- `NOP` (R60). -/
def execNop (s : State) : Host.Outcome State Fault Refusal :=
  runCycle s fun t => .ok t

/-- `RET` (R61). -/
def execRet (s : State) : Host.Outcome State Fault Refusal :=
  runCycle s fun t =>
    match popReturn t with
    | .error f => .error f
    | .ok (ret, u) => .ok (u.setPc ret)

/-- `JP NNN` (R62). -/
def execJp (nnn : Imm12) (s : State) : Host.Outcome State Fault Refusal :=
  runCycle s fun t => .ok (t.setPc (addrOf nnn))

/-- `CALL NNN` (R63): the pushed PC is the CALL's address plus 2. -/
def execCall (nnn : Imm12) (s : State) : Host.Outcome State Fault Refusal :=
  runCycle s fun t =>
    match pushReturn t t.pc with
    | .error f => .error f
    | .ok u => .ok (u.setPc (addrOf nnn))

/-- `SE Vx, NN` (R64). -/
def execSeByte (x : Nibble) (nn : Byte) (s : State) : Host.Outcome State Fault Refusal :=
  runCycle s fun t => .ok (skipIf (t.getV x == nn) t)

/-- `SNE Vx, NN` (R65). -/
def execSneByte (x : Nibble) (nn : Byte) (s : State) : Host.Outcome State Fault Refusal :=
  runCycle s fun t => .ok (skipIf (t.getV x != nn) t)

/-- `SE Vx, Vy` (R66). -/
def execSeReg (x y : Nibble) (s : State) : Host.Outcome State Fault Refusal :=
  runCycle s fun t => .ok (skipIf (t.getV x == t.getV y) t)

/-- `SNE Vx, Vy` (R67). -/
def execSneReg (x y : Nibble) (s : State) : Host.Outcome State Fault Refusal :=
  runCycle s fun t => .ok (skipIf (t.getV x != t.getV y) t)

/-- `JP V0, NNN` (R68): always V0. The sum is at most 0x10FE, so 16 bits hold it unreduced. -/
def execJpV0 (nnn : Imm12) (s : State) : Host.Outcome State Fault Refusal :=
  runCycle s fun t => .ok (t.setPc (addrOf nnn + wideOf (t.getV 0x0#4)))

end Sys2Proof.Machine
end

