-- ==== Sys2Proof/Machine/Index.lean ====
section
/-! DEFINITION. Index register, font address, BCD, register stores and loads
(spec/43_index_memory.md R83–R88). FX33, FX55 and FX65 leave I unchanged (log entry 21). -/

namespace Sys2Proof.Machine

/-- `LD I, NNN` (R83). -/
def execLdI (nnn : Imm12) (s : State) : Host.Outcome State Fault Refusal :=
  runCycle s fun t => .ok (t.setI (addrOf nnn))

/-- `ADD I, Vx` (R84): the unbounded sum must fit 16 bits; VF is not written.
DEDUCED, safe (log entry 12): the overflow fault is the spec's decision D6. -/
def execAddIVx (x : Nibble) (s : State) : Host.Outcome State Fault Refusal :=
  runCycle s fun t =>
    let sum := t.i.toNat + (t.getV x).toNat
    if sum > 0xFFFF then .error (.indexOverflow sum) else .ok (t.setI (BitVec.ofNat 16 sum))

/-- `LD F, Vx` (R85). -/
def execLdFVx (x : Nibble) (s : State) : Host.Outcome State Fault Refusal :=
  runCycle s fun t => .ok (t.setI (glyphAddr (t.getV x)))

/-- `LD B, Vx` (R86). -/
def execLdBVx (x : Nibble) (s : State) : Host.Outcome State Fault Refusal :=
  runCycle s fun t => writeBytes t (indexAddr t 0) (bcdDigits (t.getV x))

/-- `LD [I], Vx` (R87). -/
def execStoreRegs (x : Nibble) (s : State) : Host.Outcome State Fault Refusal :=
  runCycle s fun t => writeBytes t (indexAddr t 0) (regsUpTo t x)

/-- `LD Vx, [I]` (R88). -/
def execLoadRegs (x : Nibble) (s : State) : Host.Outcome State Fault Refusal :=
  runCycle s fun t =>
    match readBytes t (indexAddr t 0) (x.toNat + 1) with
    | .error f => .error f
    | .ok bs => .ok (setRegs t 0 bs)

end Sys2Proof.Machine
end

