-- ==== Sys2Proof/Machine/KeysTimers.lean ====
section
/-! DEFINITION. Keypad and timer instructions (spec/45_keys_timers.md R93–R98). -/

namespace Sys2Proof.Machine

/-- `SKP Vx` (R93). -/
def execSkp (x : Nibble) (s : State) : Host.Outcome State Fault Refusal :=
  runCycle s fun t =>
    match keyOperand (t.getV x) with
    | .error f => .error f
    | .ok k => .ok (skipIf (t.getKey k) t)

/-- `SKNP Vx` (R94). -/
def execSknp (x : Nibble) (s : State) : Host.Outcome State Fault Refusal :=
  runCycle s fun t =>
    match keyOperand (t.getV x) with
    | .error f => .error f
    | .ok k => .ok (skipIf (!t.getKey k) t)

/-- `LD Vx, DT` (R95). -/
def execLdVxDT (x : Nibble) (s : State) : Host.Outcome State Fault Refusal :=
  runCycle s fun t => .ok (t.setV x t.dt)

/-- `LD Vx, K` (R98): one poll. With no key pressed PC goes back to this instruction and the Step
returns Waiting (`stepResult`). DEDUCED (log entry 17): level-sensitive, the spec's decision D11. -/
def execLdVxK (x : Nibble) (s : State) : Host.Outcome State Fault Refusal :=
  runCycle s fun t =>
    match leastPressed t with
    | some k => .ok (t.setV x (k.setWidth 8))
    | none => .ok (t.setPc (t.pc - 2#16))

/-- `LD DT, Vx` (R96). -/
def execLdDTVx (x : Nibble) (s : State) : Host.Outcome State Fault Refusal :=
  runCycle s fun t => .ok (t.setDt (t.getV x))

/-- `LD ST, Vx` (R97). -/
def execLdSTVx (x : Nibble) (s : State) : Host.Outcome State Fault Refusal :=
  runCycle s fun t => .ok (t.setSt (t.getV x))

end Sys2Proof.Machine
end

