-- ==== Sys2Proof/Machine/Step.lean ====
section
/-! DEFINITION. The Step event (spec/40_cycle.md R49, R50): fetch, decode, execute. -/

namespace Sys2Proof.Machine

/-- One Step (R49–R55). A halted core does nothing and returns its fault again (R50); a running core
does one cycle, whose next state is halted when the cycle raised a fault (R102; log entry 1). -/
def step (s : State) : Host.Outcome State Fault Refusal :=
  match s.status with
  | .halted f => .fault f
  | .running =>
    match fetch s with
    | .error f => fetchFaultCycle s f
    | .ok op =>
      match decode op with
      | .error _ => invalidCycle s op
      | .ok i => exec i s

/-- `s` with the instruction of the table's bits `w` where the next Step fetches, in a core that runs
(log entries 6, 7). -/
def State.withFetchWord (s : State) (nbits w : Nat) : State :=
  placeWord s (tableOpcode nbits w)

end Sys2Proof.Machine
end

