-- ==== Sys2Proof/Machine/Events.lean ====
section
/-! DEFINITION. The host interface (spec/60_exceptions.md R104–R113, spec/70_reset_and_hazards.md
R121): the six events, each one indivisible transition of the state. A run is any list of events, so
every interleaving of Ticks with Steps is a run: the list IS the parameter TICK_SCHEDULE (R5, R107;
log entry 5). -/

namespace Sys2Proof.Machine

/-- A host event (R112). A key index has 4 bits, so a SetKey with an index above 15 cannot be written
(R109, D22). -/
inductive Event where
  | reset
  | load (bytes : List Byte)
  | setKey (i : Nibble) (pressed : Bool)
  | step
  | tick
  | observe
  deriving DecidableEq, Repr

/-- What a Step or a Load returns to the host (R56, R113). -/
inductive StepResult where
  /-- the instruction, or the load, completed -/
  | ok
  /-- FX0A found no key pressed (R98) -/
  | waiting
  /-- the cycle, the halted core or the load reports a fault (R50, R102, R113) -/
  | fault (f : Fault)
  deriving DecidableEq, Repr

/-- What an event returns (R112). -/
inductive Response where
  /-- Reset, SetKey and Tick return nothing -/
  | nothing
  /-- the result of a Step or a Load -/
  | result (r : StepResult)
  /-- Observe reads the screen, the status and the whole state -/
  | observed (s : State)
  deriving DecidableEq, Repr

/-- A timer counted toward 0, never below (R106). -/
def countDown (b : Byte) : Byte := if b = 0#8 then 0#8 else b - 1#8

/-- Tick (R106): both timers count down, each on its own; nothing while halted (R104). -/
def tick (s : State) : State :=
  match s.status with
  | .halted _ => s
  | .running => { s with dt := countDown s.dt, st := countDown s.st }

/-- SetKey (R109): one flag is written, whatever the status is. -/
def setKey (i : Nibble) (pressed : Bool) (s : State) : State := s.setKeyFlag i pressed

/-- Bytes copied verbatim into memory from address `a` on (R113). -/
def copyBytes : Memory → Nat → List Byte → Memory
  | m, _, [] => m
  | m, a, b :: bs => copyBytes (m.write a b) (a + 1) bs

/-- Load (R113): a program too long writes nothing and halts a running core, an earlier fault being
kept; any other is copied to 0x200, whatever the status is (R104). -/
def load (bytes : List Byte) (s : State) : State × StepResult :=
  if bytes.length > Config.maxRom then
    match s.status with
    | .running => (takeFault (.romTooLarge bytes.length) s, .fault (.romTooLarge bytes.length))
    | .halted _ => (s, .fault (.romTooLarge bytes.length))
  else ({ s with mem := copyBytes s.mem Config.progStart bytes }, .ok)

/-- The state a Step leaves (R49, R50): a halted core stays as it is. -/
def stepState (s : State) : State :=
  match step s with
  | .next t => t
  | .fault _ => s
  | .refused _ => s

/-- The fault a Step reports: a halted core's again (R50), or the one its cycle raised (R102). -/
def stepFault (s : State) : Option Fault :=
  match s.status, (stepState s).status with
  | .halted f, _ => some f
  | .running, .halted f => some f
  | .running, .running => none

/-- The cycle at hand is an FX0A and no key is pressed (R98). -/
def waits (s : State) : Bool :=
  match fetch s with
  | .error _ => false
  | .ok op =>
    match decode op with
    | .ok (.ldVxK _) => (leastPressed s).isNone
    | _ => false

/-- What a Step returns (R56). -/
def stepResult (s : State) : StepResult :=
  match stepFault s with
  | some f => .fault f
  | none => if waits s then .waiting else .ok

/-- One event (R112): the state it leaves and what it returns. -/
def event : Event → State → State × Response
  | .reset, s => (resetCore s, .nothing)
  | .load bytes, s => ((load bytes s).1, .result (load bytes s).2)
  | .setKey i pressed, s => (setKey i pressed s, .nothing)
  | .step, s => (stepState s, .result (stepResult s))
  | .tick, s => (tick s, .nothing)
  | .observe, s => (s, .observed s)

/-- A run of the core: the state a list of events leaves. The host may stop after any event (R112). -/
def runEvents : List Event → State → State
  | [], s => s
  | e :: es, s => runEvents es (event e s).1

/-- The boot sequence (R121): Reset, Load, then any events. -/
def boot (program : List Byte) (es : List Event) (s : State) : State :=
  runEvents (.reset :: .load program :: es) s

end Sys2Proof.Machine
end

