-- ==== Sys2Proof/Safety.lean ====
section
/-! DEFINITION. What claims are stated in: the ends of a run (spec/60_exceptions.md R116), the
invariant of every run, what a fault record may hold (R99, R100), and the frame vocabulary
(spec/40_cycle.md R58). -/

namespace Sys2Proof.Machine

/-- The idle state (R116): running, at a jump to its own address. The good end of a run. -/
def Idle (s : State) : Prop :=
  s.status = .running ∧ s.pc.toNat ≤ 0xFFE ∧
    opcodeOfBytes (s.mem.read s.pc.toNat) (s.mem.read (s.pc.toNat + 1)) = 0x1000#16 + s.pc

/-- The bad end of a run (R116): the core is halted by a fault. -/
def Halted (s : State) : Prop := ∃ f, s.status = .halted f

/-- The information a fault record may hold, as R99's table says: an opcode outside the 35 patterns,
an address that does not exist, an index above 15, a sum above 0xFFFF, a length above 3584. -/
def FaultRecordLegal : Fault → Prop
  | .invalidOpcode op => decode op = .error (.invalidOpcode op)
  | .memoryOutOfBounds a => 4096 ≤ a
  | .stackOverflow => True
  | .stackUnderflow => True
  | .keyIndexOutOfRange k => 16 ≤ k.toNat
  | .indexOverflow sum => 0xFFFF < sum
  | .romTooLarge len => 3584 < len

/-- The fault an instruction can raise once decoded, at most one kind each (R100). -/
def MayRaise : Instr → Fault → Prop
  | .ret, .stackUnderflow => True
  | .call _, .stackOverflow => True
  | .drw _ _ _, .memoryOutOfBounds _ => True
  | .ldBVx _, .memoryOutOfBounds _ => True
  | .storeRegs _, .memoryOutOfBounds _ => True
  | .loadRegs _, .memoryOutOfBounds _ => True
  | .skp _, .keyIndexOutOfRange _ => True
  | .sknp _, .keyIndexOutOfRange _ => True
  | .addIVx _, .indexOverflow _ => True
  | _, _ => False

/-- The invariant of every run: memory keeps its canonical form, PC stays below 0x10FF (R15), every
stack entry is an address a CALL could push (R52, R63), and a halted core's record is one R99 allows. -/
def RunInv (s : State) : Prop :=
  s.mem.wf ∧ s.pc.toNat < 0x10FF ∧ (∀ k, (s.getStack k).toNat ≤ 0x1000) ∧
    ∀ f, s.status = .halted f → FaultRecordLegal f

/-- The words R43 lists as invalid. -/
def InvalidWord (op : Word) : Prop :=
  let w := op.toNat
  (0x0001 ≤ w ∧ w ≤ 0x00DF) ∨ (0x00E1 ≤ w ∧ w ≤ 0x00ED) ∨ (0x00EF ≤ w ∧ w ≤ 0x0FFF) ∨
    (w / 4096 = 5 ∧ w % 16 ≠ 0) ∨
    (w / 4096 = 8 ∧ w % 16 ∈ [0x8, 0x9, 0xA, 0xB, 0xC, 0xD, 0xF]) ∨
    (w / 4096 = 9 ∧ w % 16 ≠ 0) ∨
    (w / 4096 = 14 ∧ w % 256 ∉ [0x9E, 0xA1]) ∨
    (w / 4096 = 15 ∧ w % 256 ∉ [0x07, 0x0A, 0x15, 0x18, 0x1E, 0x29, 0x33, 0x55, 0x65])

/-- One piece of the state of R11, as R58 lists them; `draws` is the model's own. -/
inductive Part where
  | v (x : Nibble)
  | i
  | pc
  | sp
  | stack (k : Fin 16)
  | dt
  | st
  | key (k : Nibble)
  | pixel (x y : Nat)
  | mem (a : Nat)
  | status
  | draws
  deriving DecidableEq, Repr

/-- The two states hold the same value in a part. -/
def SameAt : Part → State → State → Prop
  | .v x, s, t => t.getV x = s.getV x
  | .i, s, t => t.i = s.i
  | .pc, s, t => t.pc = s.pc
  | .sp, s, t => t.sp = s.sp
  | .stack k, s, t => t.getStack k = s.getStack k
  | .dt, s, t => t.dt = s.dt
  | .st, s, t => t.st = s.st
  | .key k, s, t => t.getKey k = s.getKey k
  | .pixel x y, s, t => t.screen.pixel x y = s.screen.pixel x y
  | .mem a, s, t => t.mem.read a = s.mem.read a
  | .status, s, t => t.status = s.status
  | .draws, s, t => t.draws = s.draws

/-- Every part but those in `may` is unchanged (R58). -/
def FrameExcept (may : Part → Prop) (s t : State) : Prop := ∀ p, ¬ may p → SameAt p s t

/-- The pixel of column `px`, row `py` is one a set bit of an `n`-row sprite at `(ox, oy)` reaches
(R89, R90, R92): column `c` of row `r`, bit `7 - c` of the byte at `I + r`. -/
def SpriteHits (s : State) (ox oy n px py : Nat) : Prop :=
  ∃ r c, r < n ∧ c < 8 ∧ (s.mem.read (s.i.toNat + r)).getLsbD (7 - c) = true ∧
    (ox + c) % 64 = px ∧ (oy + r) % 32 = py

/-! The operand fields of a word as numbers, R40's bit positions written as quotients. -/

/-- X, bits 11:8, as a number of the word. -/
def numX (op : Word) : Nibble := BitVec.ofNat 4 (op.toNat / 256)

/-- Y, bits 7:4, as a number of the word. -/
def numY (op : Word) : Nibble := BitVec.ofNat 4 (op.toNat / 16)

/-- N, bits 3:0, as a number of the word. -/
def numN (op : Word) : Nibble := BitVec.ofNat 4 op.toNat

/-- NN, bits 7:0, as a number of the word. -/
def numNN (op : Word) : Byte := BitVec.ofNat 8 op.toNat

/-- NNN, bits 11:0, as a number of the word. -/
def numNNN (op : Word) : Imm12 := BitVec.ofNat 12 op.toNat

/-- The first address `≥ 4096` of an access that starts at `base`, where there is one (R101). -/
def firstOutside (base : Nat) : Nat := if 4096 ≤ base then base else 4096

end Sys2Proof.Machine
end

