-- ==== Sys2Proof/Certificates/Slice0/Obligations.lean ====
section
/-! DEFINITION. The statements for the provers, from the numbered rules of spec/. `exec i s` is the
whole cycle of `i` at a state `s` whose PC is the address of `i` (log entry 2), so `s.pc + 2#16` below
is PC as the fetch advanced it. A statement that rests on a decision of the spec (`Dn`) says so. -/

open Sys2Proof Sys2Proof.Machine

/-! ## Decoding and encoding (spec/30_encoding.md) -/

/-- Words written out from R42's patterns decode to the instructions they stand for. Sanity. -/
def Obligations.SampleWordsDecode : Prop :=
  decode 0x00E0#16 = .ok .cls ∧ decode 0x00EE#16 = .ok .ret ∧ decode 0x1234#16 = .ok (.jp 0x234#12) ∧
    decode 0x3310#16 = .ok (.seByte 3#4 0x10#8) ∧ decode 0x6A42#16 = .ok (.ldByte 0xA#4 0x42#8) ∧
    decode 0x8127#16 = .ok (.subnReg 1#4 2#4) ∧ decode 0xA300#16 = .ok (.ldI 0x300#12) ∧
    decode 0xD015#16 = .ok (.drw 0#4 1#4 5#4) ∧ decode 0xE5A1#16 = .ok (.sknp 5#4) ∧
    decode 0xF40A#16 = .ok (.ldVxK 4#4) ∧ decode 0xF355#16 = .ok (.storeRegs 3#4) ∧
    decode 0x5001#16 = .error (.invalidOpcode 0x5001#16)

/-- R42: the whole opcode map, all 35 patterns and the six invalid rows, operands read from the bits R40
gives them. -/
def Obligations.DecodeFollowsTheOpcodeMap : Prop :=
  ∀ op : Word,
    (op.toNat = 0x0000 → decode op = .ok .nop) ∧
    (op.toNat = 0x00E0 → decode op = .ok .cls) ∧
    (op.toNat = 0x00EE → decode op = .ok .ret) ∧
    (op.toNat / 4096 = 0x1 → decode op = .ok (.jp (numNNN op))) ∧
    (op.toNat / 4096 = 0x2 → decode op = .ok (.call (numNNN op))) ∧
    (op.toNat / 4096 = 0x3 → decode op = .ok (.seByte (numX op) (numNN op))) ∧
    (op.toNat / 4096 = 0x4 → decode op = .ok (.sneByte (numX op) (numNN op))) ∧
    (op.toNat / 4096 = 0x5 → op.toNat % 16 = 0x0 → decode op = .ok (.seReg (numX op) (numY op))) ∧
    (op.toNat / 4096 = 0x6 → decode op = .ok (.ldByte (numX op) (numNN op))) ∧
    (op.toNat / 4096 = 0x7 → decode op = .ok (.addByte (numX op) (numNN op))) ∧
    (op.toNat / 4096 = 0x8 → op.toNat % 16 = 0x0 → decode op = .ok (.ldReg (numX op) (numY op))) ∧
    (op.toNat / 4096 = 0x8 → op.toNat % 16 = 0x1 → decode op = .ok (.orReg (numX op) (numY op))) ∧
    (op.toNat / 4096 = 0x8 → op.toNat % 16 = 0x2 → decode op = .ok (.andReg (numX op) (numY op))) ∧
    (op.toNat / 4096 = 0x8 → op.toNat % 16 = 0x3 → decode op = .ok (.xorReg (numX op) (numY op))) ∧
    (op.toNat / 4096 = 0x8 → op.toNat % 16 = 0x4 → decode op = .ok (.addReg (numX op) (numY op))) ∧
    (op.toNat / 4096 = 0x8 → op.toNat % 16 = 0x5 → decode op = .ok (.subReg (numX op) (numY op))) ∧
    (op.toNat / 4096 = 0x8 → op.toNat % 16 = 0x6 → decode op = .ok (.shr (numX op) (numY op))) ∧
    (op.toNat / 4096 = 0x8 → op.toNat % 16 = 0x7 → decode op = .ok (.subnReg (numX op) (numY op))) ∧
    (op.toNat / 4096 = 0x8 → op.toNat % 16 = 0xE → decode op = .ok (.shl (numX op) (numY op))) ∧
    (op.toNat / 4096 = 0x9 → op.toNat % 16 = 0x0 → decode op = .ok (.sneReg (numX op) (numY op))) ∧
    (op.toNat / 4096 = 0xA → decode op = .ok (.ldI (numNNN op))) ∧
    (op.toNat / 4096 = 0xB → decode op = .ok (.jpV0 (numNNN op))) ∧
    (op.toNat / 4096 = 0xC → decode op = .ok (.rnd (numX op) (numNN op))) ∧
    (op.toNat / 4096 = 0xD → decode op = .ok (.drw (numX op) (numY op) (numN op))) ∧
    (op.toNat / 4096 = 0xE → op.toNat % 256 = 0x9E → decode op = .ok (.skp (numX op))) ∧
    (op.toNat / 4096 = 0xE → op.toNat % 256 = 0xA1 → decode op = .ok (.sknp (numX op))) ∧
    (op.toNat / 4096 = 0xF → op.toNat % 256 = 0x07 → decode op = .ok (.ldVxDT (numX op))) ∧
    (op.toNat / 4096 = 0xF → op.toNat % 256 = 0x0A → decode op = .ok (.ldVxK (numX op))) ∧
    (op.toNat / 4096 = 0xF → op.toNat % 256 = 0x15 → decode op = .ok (.ldDTVx (numX op))) ∧
    (op.toNat / 4096 = 0xF → op.toNat % 256 = 0x18 → decode op = .ok (.ldSTVx (numX op))) ∧
    (op.toNat / 4096 = 0xF → op.toNat % 256 = 0x1E → decode op = .ok (.addIVx (numX op))) ∧
    (op.toNat / 4096 = 0xF → op.toNat % 256 = 0x29 → decode op = .ok (.ldFVx (numX op))) ∧
    (op.toNat / 4096 = 0xF → op.toNat % 256 = 0x33 → decode op = .ok (.ldBVx (numX op))) ∧
    (op.toNat / 4096 = 0xF → op.toNat % 256 = 0x55 → decode op = .ok (.storeRegs (numX op))) ∧
    (op.toNat / 4096 = 0xF → op.toNat % 256 = 0x65 → decode op = .ok (.loadRegs (numX op))) ∧
    (op.toNat / 4096 = 0x0 → op.toNat ∉ [0x0000, 0x00E0, 0x00EE] →
      decode op = .error (.invalidOpcode op)) ∧
    (op.toNat / 4096 = 0x5 → op.toNat % 16 ≠ 0x0 → decode op = .error (.invalidOpcode op)) ∧
    (op.toNat / 4096 = 0x8 → op.toNat % 16 ∈ [0x8, 0x9, 0xA, 0xB, 0xC, 0xD, 0xF] →
      decode op = .error (.invalidOpcode op)) ∧
    (op.toNat / 4096 = 0x9 → op.toNat % 16 ≠ 0x0 → decode op = .error (.invalidOpcode op)) ∧
    (op.toNat / 4096 = 0xE → op.toNat % 256 ∉ [0x9E, 0xA1] →
      decode op = .error (.invalidOpcode op)) ∧
    (op.toNat / 4096 = 0xF →
      op.toNat % 256 ∉ [0x07, 0x0A, 0x15, 0x18, 0x1E, 0x29, 0x33, 0x55, 0x65] →
      decode op = .error (.invalidOpcode op))

/-- Decoding an instruction's word gives the instruction back, with every operand at every value, and so
does reading it in the opcode table's numbering. -/
def Obligations.DecodeOfEncode : Prop :=
  ∀ i : Instr, decode (encode i) = .ok i ∧ decodeTableWord 16 (encode i).toNat = some i

/-- Every word that decodes is the word of its instruction, and carries its row's fixed bits. -/
def Obligations.EncodeOfDecode : Prop :=
  ∀ (op : Word) (i : Instr), decode op = .ok i → encode i = op ∧ op &&& rowMask i = rowMatch i

/-- R43: the words that decode to nothing are exactly the listed ones; a Step of one reports
`InvalidOpcode` with the word and changes nothing but the status. -/
def Obligations.InvalidWordsHalt : Prop :=
  (∀ op : Word, decode op = .error (.invalidOpcode op) ↔ InvalidWord op) ∧
    ∀ (s : State) (op : Word), s.status = .running → fetch s = .ok op → InvalidWord op →
      step s = .next { s with status := .halted (.invalidOpcode op) } ∧
        stepResult s = .fault (.invalidOpcode op)

/-! ## The cycle (spec/40_cycle.md) -/

/-- When the two bytes at PC decode to `i`, a running core's Step is `exec i` at that state; `exec`
itself advances PC (log entry 2). -/
def Obligations.StepRunsTheDecodedInstruction : Prop :=
  ∀ (s : State) (i : Instr), s.status = .running → s.pc.toNat ≤ 0xFFE →
    decode (opcodeOfBytes (s.mem.read s.pc.toNat) (s.mem.read (s.pc.toNat + 1))) = .ok i →
    step s = exec i s

/-- R51: the fetch reads the bytes at PC and PC + 1; from 0xFFF up it reports the first address that
does not exist, and the Step leaves everything but the status. -/
def Obligations.FetchReadsTwoBytesOrFaults : Prop :=
  ∀ s : State,
    (s.pc.toNat ≤ 0xFFE →
      fetch s = .ok (opcodeOfBytes (s.mem.read s.pc.toNat) (s.mem.read (s.pc.toNat + 1)))) ∧
    (s.status = .running → 0x1000 ≤ s.pc.toNat →
      step s = .next { s with status := .halted (.memoryOutOfBounds s.pc.toNat) }) ∧
    (s.status = .running → s.pc.toNat = 0x0FFF →
      step s = .next { s with status := .halted (.memoryOutOfBounds 0x1000) })

/-- A halted core's Step does nothing and returns the same fault (the spec's decision D4). -/
def Obligations.HaltedStepRepeatsItsFault : Prop :=
  ∀ (s : State) (f : Fault), s.status = .halted f →
    step s = .fault f ∧ stepState s = s ∧ stepResult s = .fault f

/-- R55, R102: a cycle that raises a fault leaves the state as it was before it, PC included, but for
the status, and the Step returns the fault. -/
def Obligations.FaultUndoesTheCycle : Prop :=
  ∀ (s t : State) (f : Fault), s.status = .running → step s = .next t → t.status = .halted f →
    t = { s with status := .halted f } ∧ stepResult s = .fault f

/-- A running core's Step always answers the outcome `next`: no instruction is refused. A cycle that
faults counts here as a next state, halted, and a waiting FX0A as one that left everything as it was: that
the outcome is `next` in both is the model's choice (log entry 1). -/
def Obligations.RunningStepAnswersNext : Prop :=
  ∀ s : State, s.status = .running → ∃ t, step s = .next t

/-- Every instruction completes or raises the one kind of fault R100 gives it, and the 26 others
always complete (an inference of R100; two kinds are the spec's decisions D5, D6). -/
def Obligations.FaultsPerInstruction : Prop :=
  ∀ (i : Instr) (s : State), ∃ t, exec i s = .next t ∧
    (t.status = s.status ∨ ∃ f, MayRaise i f ∧ t = { s with status := .halted f })

/-- A fault a Step raises records what R99's table says: an opcode outside the patterns, an address
of 4096 or more, an index above 15, a sum above 0xFFFF (the last two the spec's decisions D5, D6). -/
def Obligations.FaultRecordsAreLegal : Prop :=
  ∀ (s t : State) (f : Fault), s.status = .running → step s = .next t → t.status = .halted f →
    FaultRecordLegal f

/-- R56: a Step returns Waiting exactly when a running core's FX0A finds no key pressed, Fault(f) exactly
when it leaves the core halted by `f`, and Ok otherwise. -/
def Obligations.StepResultIsOkWaitingOrFault : Prop :=
  ∀ s : State,
    (stepResult s = .waiting ↔ s.status = .running ∧
      (∃ op x, fetch s = .ok op ∧ decode op = .ok (.ldVxK x)) ∧ ∀ k, s.getKey k = false) ∧
    (∀ f, stepResult s = .fault f ↔ (stepState s).status = .halted f) ∧
    (stepResult s = .ok ↔ stepResult s ≠ .waiting ∧ (stepState s).status = .running)

/-! ## What may write what (spec/10_state.md) -/

/-- R19: the 16 key flags are false after reset; SetKey writes one flag and nothing else; no
instruction and no other event but Reset changes one. -/
def Obligations.KeysAreWrittenBySetKeyOnly : Prop :=
  (∀ (k j : Nibble) (b : Bool) (s : State),
      (setKey k b s).getKey j = (if j = k then b else s.getKey j) ∧
        FrameExcept (fun p => p = .key k) s (setKey k b s)) ∧
    (∀ (i : Instr) (s t : State), exec i s = .next t → t.key = s.key) ∧
    (∀ (e : Event) (s : State), e ≠ .reset → (∀ k b, e ≠ .setKey k b) → (event e s).1.key = s.key) ∧
    ∀ (s : State) (k : Nibble), (event .reset s).1.getKey k = false

/-- I, the call stack, the timers, the framebuffer and memory change only in the instructions their rules
name (R14, R16, R17, R18, R20, R38; the frame is the spec's decision D26). The last clause is about the
model's own draw counter, which no rule of the spec knows (DESIGN CHOICE, log entry 4): it changes only in
CXNN, the one instruction that draws a random byte (R54, R82). -/
def Obligations.OnlyTheNamedInstructionsWrite : Prop :=
  ∀ (i : Instr) (s t : State), exec i s = .next t →
    (t.i ≠ s.i → (∃ a, i = .ldI a) ∨ (∃ x, i = .addIVx x) ∨ ∃ x, i = .ldFVx x) ∧
    (t.sp ≠ s.sp → (∃ a, i = .call a) ∨ i = .ret) ∧
    (t.stack ≠ s.stack → ∃ a, i = .call a) ∧
    (t.dt ≠ s.dt → ∃ x, i = .ldDTVx x) ∧
    (t.st ≠ s.st → ∃ x, i = .ldSTVx x) ∧
    (t.screen ≠ s.screen → i = .cls ∨ ∃ x y n, i = .drw x y n) ∧
    (t.mem ≠ s.mem → (∃ x, i = .ldBVx x) ∨ ∃ x, i = .storeRegs x) ∧
    (t.draws ≠ s.draws → ∃ x nn, i = .rnd x nn)

/-- The flag writers of R13 leave VF at 0 or 1 on every execution that does not fault, VF being their
destination too or not (the spec's decision D10). -/
def Obligations.FlagWritersLeaveZeroOrOne : Prop :=
  ∀ (x y n : Nibble) (i : Instr) (s t : State),
    i ∈ [.addReg x y, .subReg x y, .shr x y, .subnReg x y, .shl x y, .drw x y n] →
    exec i s = .next t →
    t.getV 0xF#4 = 0#8 ∨ t.getV 0xF#4 = 1#8 ∨ ∃ f, t = { s with status := .halted f }

/-- Nothing a Step does depends on ST: two states that differ in ST alone step alike, and still differ
at most there (R18: no instruction reads it). -/
def Obligations.SoundTimerIsNeverRead : Prop :=
  ∀ (s t : State) (b : Byte), step s = .next t →
    ∃ u, step { s with st := b } = .next u ∧ { u with st := t.st } = t ∧
      stepResult { s with st := b } = stepResult s

/-! ## Invariants -/

/-- The reset state meets the invariant. -/
def Obligations.ResetMeetsTheInvariant : Prop := RunInv State.reset

/-- Every Step keeps the invariant: memory canonical, PC below 0x10FF, stack entries at most 0x1000,
a legal fault record (R15 gives the bound on PC as an inference of its own). -/
def Obligations.StepKeepsTheInvariant : Prop :=
  ∀ s t : State, RunInv s → step s = .next t → RunInv t

/-- Every run of host events, in every interleaving, keeps the invariant. -/
def Obligations.RunsKeepTheInvariant : Prop :=
  ∀ (es : List Event) (s : State), RunInv s → RunInv (runEvents es s)

/-! ## Reset and the host's events (spec/60_exceptions.md, spec/70_reset_and_hazards.md) -/

/-- R117: the Reset event sets every piece of state to its reset value, whatever it was, and returns
nothing. -/
def Obligations.ResetSetsEveryValue : Prop :=
  ∀ s : State, ∃ t, event .reset s = (t, .nothing) ∧
    (∀ x, t.getV x = 0#8) ∧ t.i = 0#16 ∧ t.pc = 0x200#16 ∧ t.sp.val = 0 ∧
    (∀ k, t.getStack k = 0#16) ∧ t.dt = 0#8 ∧ t.st = 0#8 ∧ (∀ k, t.getKey k = false) ∧
    (∀ x y, t.screen.pixel x y = false) ∧ t.status = .running ∧
    (∀ a, a < 80 → t.mem.read a = Config.font a) ∧ ∀ a, 80 ≤ a → t.mem.read a = 0#8

/-- R106: a Tick takes 1 from each timer that is above 0, each on its own, and changes nothing else; a
halted core's timers stand. -/
def Obligations.TickCountsDown : Prop :=
  ∀ s : State, ∃ t, event .tick s = (t, .nothing) ∧
    (s.status = .running → t.dt.toNat = s.dt.toNat - 1 ∧ t.st.toNat = s.st.toNat - 1 ∧
      FrameExcept (fun p => p = .dt ∨ p = .st) s t) ∧
    ∀ f, s.status = .halted f → t = s

/-- After `n` Ticks of a running core each timer has lost `n`, and stays at 0 (S10 of
spec/95_test_vectors.md). -/
def Obligations.TicksReachZeroAndStay : Prop :=
  ∀ (n : Nat) (s : State), s.status = .running →
    (runEvents (List.replicate n .tick) s).dt.toNat = s.dt.toNat - n ∧
      (runEvents (List.replicate n .tick) s).st.toNat = s.st.toNat - n

/-- Load copies a program of at most 3584 bytes to 0x200 and changes nothing else; a longer one writes
nothing and halts a running core, an earlier fault being kept (R113, the spec's decision D21). -/
def Obligations.LoadCopiesOrHalts : Prop :=
  ∀ (bytes : List Byte) (s : State),
    (bytes.length ≤ 3584 → ∃ t, event (.load bytes) s = (t, .result .ok) ∧
      (∀ k, k < bytes.length → t.mem.read (0x200 + k) = bytes.getD k 0#8) ∧
      FrameExcept (fun p => ∃ k, k < bytes.length ∧ p = .mem (0x200 + k)) s t) ∧
    (3584 < bytes.length → s.status = .running →
      event (.load bytes) s = ({ s with status := .halted (.romTooLarge bytes.length) },
        .result (.fault (.romTooLarge bytes.length)))) ∧
    ∀ f, 3584 < bytes.length → s.status = .halted f →
      event (.load bytes) s = (s, .result (.fault (.romTooLarge bytes.length)))

/-- Only Reset returns a halted core to Running, and only SetKey, Load and Reset change it at all: SetKey
writes its flag and a Load of at most 3584 bytes writes them from 0x200, the core staying halted
(R103, R104; the spec's decision D4). -/
def Obligations.OnlyResetEndsAHalt : Prop :=
  ∀ (s : State) (f : Fault), s.status = .halted f →
    (event .step s).1 = s ∧ (event .tick s).1 = s ∧ (event .observe s).1 = s ∧
    (∀ k b, (event (.setKey k b) s).1.status = .halted f ∧
      (event (.setKey k b) s).1.getKey k = b) ∧
    (∀ bytes, (event (.load bytes) s).1.status = .halted f ∧
      (bytes.length ≤ 3584 → ∀ k, k < bytes.length →
        (event (.load bytes) s).1.mem.read (0x200 + k) = bytes.getD k 0#8)) ∧
    (event .reset s).1.status = .running ∧
    ∀ es, .reset ∉ es → (runEvents es s).status = .halted f

/-- In the idle state every Step leaves the state unchanged (R116, the spec's decision D23). -/
def Obligations.IdleStepsChangeNothing : Prop :=
  ∀ s : State, Idle s → step s = .next s ∧ stepResult s = .ok

/-- After Reset and Load the core runs, at 0x200, and its first fetch is the program's first two
bytes, or the zero word where none is loaded (R119, R121). -/
def Obligations.BootFetchesTheProgram : Prop :=
  ∀ (bytes : List Byte) (s : State), bytes.length ≤ 3584 →
    (boot bytes [] s).status = .running ∧ (boot bytes [] s).pc = 0x200#16 ∧
      fetch (boot bytes [] s) = .ok (opcodeOfBytes (bytes.getD 0 0#8) (bytes.getD 1 0#8))

/-! ## Memory (spec/20_memory.md) -/

/-- A write is read back at its address and leaves every other address; both faults name the address,
from 4096 up (R25, R26, R27); a write keeps the canonical form. -/
def Obligations.MemoryReadsBackWrites : Prop :=
  ∀ (s : State) (a : Nat) (v : Byte),
    (a < 4096 → ∃ t, memWrite s a v = .ok t ∧ t.mem.read a = v ∧
      FrameExcept (fun p => p = .mem a) s t ∧ (s.mem.wf → t.mem.wf) ∧
      memRead s a = .ok (s.mem.read a)) ∧
    (4096 ≤ a → memWrite s a v = .error (.memoryOutOfBounds a) ∧
      memRead s a = .error (.memoryOutOfBounds a))

/-- An FX55 that stores over the next instruction is seen by the next fetch (R37, the spec's decision
D16). -/
def Obligations.StoresAreSeenByTheNextFetch : Prop :=
  ∀ (x : Nibble) (s : State), 1 ≤ x.toNat → s.i.toNat = s.pc.toNat + 2 →
    s.i.toNat + x.toNat < 4096 →
    ∃ t, exec (.storeRegs x) s = .next t ∧
      fetch t = .ok (opcodeOfBytes (s.getV 0#4) (s.getV 1#4))

/-! ## Control flow (spec/41_flow.md) -/

/-- The word 0x0000 alone, of those below 0x1000 that are not CLS or RET, is NOP, the others invalid; NOP
only lets PC advance (R60; that nothing else changes is the spec's decision D26). That a Step over zero
bytes does the same, and that PC = 0x1000 then faults, is R60's corner case, which the spec marks as its own
inference from R60, R51 and R118. -/
def Obligations.NopOnlyAdvances : Prop :=
  (∀ op : Word, op.toNat ≤ 0x0FFF → op.toNat ≠ 0x00E0 → op.toNat ≠ 0x00EE →
      decode op = if op.toNat = 0 then .ok .nop else .error (.invalidOpcode op)) ∧
    (∀ s : State, ∃ t, exec .nop s = .next t ∧ t.pc = s.pc + 2#16 ∧
      FrameExcept (fun p => p = .pc) s t) ∧
    (∀ s : State, s.status = .running → s.pc.toNat ≤ 0xFFE → s.mem.read s.pc.toNat = 0#8 →
      s.mem.read (s.pc.toNat + 1) = 0#8 → step s = .next { s with pc := s.pc + 2#16 }) ∧
    ∀ s : State, s.status = .running → s.pc = 0x1000#16 →
      step s = .next { s with status := .halted (.memoryOutOfBounds 0x1000) }

/-- R61: RET with SP = 0 faults; else SP goes down, PC is the entry popped, which keeps its value, and
no register but PC changes; a popped address from 0xFFF up faults at the next fetch. -/
def Obligations.RetPopsOrUnderflows : Prop :=
  (∀ op : Word, op.toNat = 0x00EE → decode op = .ok .ret) ∧
    (∀ s : State, s.sp.val = 0 →
      exec .ret s = .next { s with status := .halted .stackUnderflow }) ∧
    ∀ (s : State) (k : Fin 16), s.sp.val = k.val + 1 →
      ∃ t, exec .ret s = .next t ∧ t.sp.val = k.val ∧ t.pc = s.getStack k ∧ t.stack = s.stack ∧
        t.v = s.v ∧ t.i = s.i ∧ t.dt = s.dt ∧ t.st = s.st ∧
        (s.status = .running → 0xFFF ≤ (s.getStack k).toNat →
          step t = .next
            { t with status := .halted (.memoryOutOfBounds (firstOutside (s.getStack k).toNat)) })

/-- R62: JP loads PC with NNN, odd or even; NNN = 0xFFF faults at the next fetch; a jump to its own
address leaves the state as it was. -/
def Obligations.JpJumps : Prop :=
  (∀ op : Word, op.toNat / 4096 = 0x1 → decode op = .ok (.jp (numNNN op))) ∧
    ∀ (nnn : Imm12) (s : State), ∃ t, exec (.jp nnn) s = .next t ∧ t.pc.toNat = nnn.toNat ∧
      t.v = s.v ∧
      (s.status = .running → nnn.toNat = 0xFFF →
        step t = .next { t with status := .halted (.memoryOutOfBounds 0x1000) }) ∧
      (s.pc.toNat = nnn.toNat → t = s)

/-- R63: CALL with SP = 16 faults; else it pushes the address after it, SP goes up and PC is NNN, and
a RET from there resumes after the CALL. -/
def Obligations.CallPushesOrOverflows : Prop :=
  (∀ op : Word, op.toNat / 4096 = 0x2 → decode op = .ok (.call (numNNN op))) ∧
    (∀ (nnn : Imm12) (s : State), s.sp.val = 16 →
      exec (.call nnn) s = .next { s with status := .halted .stackOverflow }) ∧
    ∀ (nnn : Imm12) (s : State) (k : Fin 16), s.sp.val = k.val →
      ∃ t, exec (.call nnn) s = .next t ∧ t.getStack k = s.pc + 2#16 ∧ t.sp.val = k.val + 1 ∧
        t.pc.toNat = nnn.toNat ∧ t.v = s.v ∧ (∀ j, j ≠ k → t.getStack j = s.getStack j) ∧
        ∃ u, exec .ret t = .next u ∧ u.pc = s.pc + 2#16

/-- A RET in any state that holds the stack a CALL left resumes after the CALL, with SP as before it
(S5 of spec/95_test_vectors.md; conflict C9). -/
def Obligations.RetUndoesCall : Prop :=
  ∀ (nnn : Imm12) (s t u : State), s.sp.val < 16 → exec (.call nnn) s = .next t →
    u.sp = t.sp → u.stack = t.stack →
    ∃ w, exec .ret u = .next w ∧ w.pc = s.pc + 2#16 ∧ w.sp = s.sp

/-- R64, R65: SE and SNE with a byte skip the next two bytes when VX is, or is not, NN. -/
def Obligations.ByteComparesSkip : Prop :=
  (∀ op : Word, op.toNat / 4096 = 0x3 → decode op = .ok (.seByte (numX op) (numNN op))) ∧
    (∀ op : Word, op.toNat / 4096 = 0x4 → decode op = .ok (.sneByte (numX op) (numNN op))) ∧
    ∀ (x : Nibble) (nn : Byte) (s : State),
      (∃ t, exec (.seByte x nn) s = .next t ∧ t.v = s.v ∧
        t.pc = if s.getV x = nn then s.pc + 4#16 else s.pc + 2#16) ∧
      ∃ t, exec (.sneByte x nn) s = .next t ∧ t.v = s.v ∧
        t.pc = if s.getV x = nn then s.pc + 2#16 else s.pc + 4#16

/-- R66, R67: SE and SNE of two registers; with X = Y the one always skips and the other never; a word
whose N is not 0 is invalid. -/
def Obligations.RegisterComparesSkip : Prop :=
  (∀ op : Word, op.toNat / 4096 = 0x5 →
      decode op = if op.toNat % 16 = 0 then .ok (.seReg (numX op) (numY op))
        else .error (.invalidOpcode op)) ∧
    (∀ op : Word, op.toNat / 4096 = 0x9 →
      decode op = if op.toNat % 16 = 0 then .ok (.sneReg (numX op) (numY op))
        else .error (.invalidOpcode op)) ∧
    ∀ (x y : Nibble) (s : State),
      (∃ t, exec (.seReg x y) s = .next t ∧ t.v = s.v ∧
        t.pc = (if s.getV x = s.getV y then s.pc + 4#16 else s.pc + 2#16) ∧
        (x = y → t.pc = s.pc + 4#16)) ∧
      ∃ t, exec (.sneReg x y) s = .next t ∧ t.v = s.v ∧
        t.pc = (if s.getV x = s.getV y then s.pc + 2#16 else s.pc + 4#16) ∧
        (x = y → t.pc = s.pc + 2#16)

/-- BNNN jumps to NNN + V0, not reduced (R68, the spec's decision D7); a target from 0xFFF up faults at
the next fetch, at the address itself or at 0x1000. -/
def Obligations.JpV0JumpsUnreduced : Prop :=
  ∀ (nnn : Imm12) (s : State), ∃ t, exec (.jpV0 nnn) s = .next t ∧
    t.pc.toNat = nnn.toNat + (s.getV 0#4).toNat ∧ t.v = s.v ∧
    (s.status = .running → 0xFFF ≤ t.pc.toNat →
      step t = .next { t with status := .halted (.memoryOutOfBounds (firstOutside t.pc.toNat)) })

/-! ## ALU (spec/42_alu.md) -/

/-- The plain loads write VX, and the byte add writes it modulo 256 with no flag (R71, R72, R73); no other
V register, nor I, SP, DT or ST, changes. The source says that for 6XNN; for 7XNN and 8XY0 it is R58's
extension, the spec's decision D26 (log entry 21). -/
def Obligations.LoadsAndByteAdd : Prop :=
  (∀ op : Word, op.toNat / 4096 = 0x6 → decode op = .ok (.ldByte (numX op) (numNN op))) ∧
    (∀ op : Word, op.toNat / 4096 = 0x7 → decode op = .ok (.addByte (numX op) (numNN op))) ∧
    (∀ op : Word, op.toNat / 4096 = 0x8 → op.toNat % 16 = 0 →
      decode op = .ok (.ldReg (numX op) (numY op))) ∧
    ∀ (x y : Nibble) (nn : Byte) (s : State),
      (∃ t, exec (.ldByte x nn) s = .next t ∧ t.pc = s.pc + 2#16 ∧ t.getV x = nn ∧
        (∀ z, z ≠ x → t.getV z = s.getV z) ∧ t.i = s.i ∧ t.sp = s.sp ∧ t.dt = s.dt ∧ t.st = s.st) ∧
      (∃ t, exec (.addByte x nn) s = .next t ∧ t.pc = s.pc + 2#16 ∧
        (t.getV x).toNat = ((s.getV x).toNat + nn.toNat) % 256 ∧
        (∀ z, z ≠ x → t.getV z = s.getV z) ∧ t.i = s.i ∧ t.sp = s.sp ∧ t.dt = s.dt ∧ t.st = s.st) ∧
      ∃ t, exec (.ldReg x y) s = .next t ∧ t.pc = s.pc + 2#16 ∧ t.getV x = s.getV y ∧
        (∀ z, z ≠ x → t.getV z = s.getV z) ∧ t.i = s.i ∧ t.sp = s.sp ∧ t.dt = s.dt ∧ t.st = s.st

/-- OR, AND and XOR write VX, bit by bit, and no other register: VF is unchanged unless X = F (R74 to
R76; the flags clause is the spec's decision D26). -/
def Obligations.LogicIsBitwise : Prop :=
  ∀ (x y : Nibble) (s : State),
    (∃ t, exec (.orReg x y) s = .next t ∧ t.pc = s.pc + 2#16 ∧
      (∀ b, (t.getV x).getLsbD b = ((s.getV x).getLsbD b || (s.getV y).getLsbD b)) ∧
      ∀ z, z ≠ x → t.getV z = s.getV z) ∧
    (∃ t, exec (.andReg x y) s = .next t ∧ t.pc = s.pc + 2#16 ∧
      (∀ b, (t.getV x).getLsbD b = ((s.getV x).getLsbD b && (s.getV y).getLsbD b)) ∧
      ∀ z, z ≠ x → t.getV z = s.getV z) ∧
    ∃ t, exec (.xorReg x y) s = .next t ∧ t.pc = s.pc + 2#16 ∧
      (∀ b, (t.getV x).getLsbD b = ((s.getV x).getLsbD b ^^ (s.getV y).getLsbD b)) ∧
      ∀ z, z ≠ x → t.getV z = s.getV z

/-- 8XY4: the sum modulo 256, and VF the carry of the unbounded sum; when X = F the flag is what VF
ends as (R77, the spec's decision D10). -/
def Obligations.AddSetsCarry : Prop :=
  ∀ (x y : Nibble) (s : State), ∃ t, exec (.addReg x y) s = .next t ∧ t.pc = s.pc + 2#16 ∧
    (x ≠ 0xF#4 → (t.getV x).toNat = ((s.getV x).toNat + (s.getV y).toNat) % 256) ∧
    t.getV 0xF#4 = (if (s.getV x).toNat + (s.getV y).toNat > 255 then 1#8 else 0#8)

/-- 8XY5 and 8XY7: the difference modulo 256, and VF = 1 exactly when nothing is borrowed; when X = F the
flag is what VF ends as (R78, R80, the spec's decision D10). -/
def Obligations.SubtractionsSetNoBorrow : Prop :=
  ∀ (x y : Nibble) (s : State),
    (∃ t, exec (.subReg x y) s = .next t ∧ t.pc = s.pc + 2#16 ∧
      (x ≠ 0xF#4 → (t.getV x).toNat = ((s.getV x).toNat + 256 - (s.getV y).toNat) % 256) ∧
      t.getV 0xF#4 = if (s.getV x).toNat ≥ (s.getV y).toNat then 1#8 else 0#8) ∧
    ∃ t, exec (.subnReg x y) s = .next t ∧ t.pc = s.pc + 2#16 ∧
      (x ≠ 0xF#4 → (t.getV x).toNat = ((s.getV y).toNat + 256 - (s.getV x).toNat) % 256) ∧
      t.getV 0xF#4 = if (s.getV y).toNat ≥ (s.getV x).toNat then 1#8 else 0#8

/-- 8XY6 and 8XYE shift VX by one bit, VF the bit shifted out, whatever Y is; when X = F the flag is what
VF ends as (R79, R81, R44, the spec's decision D10). -/
def Obligations.ShiftsSetTheBitShiftedOut : Prop :=
  ∀ (x y : Nibble) (s : State),
    (∃ t, exec (.shr x y) s = .next t ∧ t.pc = s.pc + 2#16 ∧
      (x ≠ 0xF#4 → (t.getV x).toNat = (s.getV x).toNat / 2) ∧
      (t.getV 0xF#4).toNat = (s.getV x).toNat % 2 ∧ ∀ z, exec (.shr x z) s = .next t) ∧
    ∃ t, exec (.shl x y) s = .next t ∧ t.pc = s.pc + 2#16 ∧
      (x ≠ 0xF#4 → (t.getV x).toNat = (s.getV x).toNat * 2 % 256) ∧
      (t.getV 0xF#4).toNat = (s.getV x).toNat / 128 ∧ ∀ z, exec (.shl x z) s = .next t

/-- CXNN puts a fresh free byte, masked by NN, into VX: a bit clear in NN is clear in the result (R82,
the spec's decision D17; the draw counter is the model's, log entry 4). -/
def Obligations.RndMasksAFreshByte : Prop :=
  ∀ (x : Nibble) (nn : Byte) (s : State), ∃ t, exec (.rnd x nn) s = .next t ∧
    t.pc = s.pc + 2#16 ∧ t.draws = s.draws + 1 ∧
    (∀ b, (t.getV x).getLsbD b = ((Config.rand s.draws).getLsbD b && nn.getLsbD b)) ∧
    (nn = 0#8 → t.getV x = 0#8) ∧ ∀ z, z ≠ x → t.getV z = s.getV z

/-! ## Index register and memory moves (spec/43_index_memory.md) -/

/-- R83, R85: ANNN loads I with NNN, below 0x1000; FX29 loads it with the whole byte VX times 5, the
glyph address for VX up to 15. -/
def Obligations.IndexLoads : Prop :=
  (∀ op : Word, op.toNat / 4096 = 0xA → decode op = .ok (.ldI (numNNN op))) ∧
    (∀ op : Word, op.toNat / 4096 = 0xF → op.toNat % 256 = 0x29 →
      decode op = .ok (.ldFVx (numX op))) ∧
    (∀ (nnn : Imm12) (s : State), ∃ t, exec (.ldI nnn) s = .next t ∧ t.pc = s.pc + 2#16 ∧
      t.i.toNat = nnn.toNat ∧ t.i.toNat ≤ 0xFFF ∧ t.v = s.v) ∧
    ∀ (x : Nibble) (s : State), ∃ t, exec (.ldFVx x) s = .next t ∧ t.pc = s.pc + 2#16 ∧
      t.i.toNat = (s.getV x).toNat * 5 ∧ t.v = s.v

/-- FX1E adds VX to I, VF unchanged, and faults when the sum does not fit 16 bits (R84, the spec's
decision D6). -/
def Obligations.AddIOrOverflow : Prop :=
  ∀ (x : Nibble) (s : State),
    (s.i.toNat + (s.getV x).toNat ≤ 0xFFFF → ∃ t, exec (.addIVx x) s = .next t ∧
      t.pc = s.pc + 2#16 ∧ t.i.toNat = s.i.toNat + (s.getV x).toNat ∧ t.v = s.v) ∧
    (0xFFFF < s.i.toNat + (s.getV x).toNat → exec (.addIVx x) s =
      .next { s with status := .halted (.indexOverflow (s.i.toNat + (s.getV x).toNat)) })

/-- FX33 stores the three decimal digits of VX at I, I + 1, I + 2; when one of these does not exist it
stores nothing and faults at the first (R86; I unchanged is the spec's decision D26). -/
def Obligations.BcdStoresDigits : Prop :=
  ∀ (x : Nibble) (s : State),
    (s.i.toNat + 2 < 4096 → ∃ t, exec (.ldBVx x) s = .next t ∧ t.pc = s.pc + 2#16 ∧ t.i = s.i ∧
      (s.getV x).toNat = (t.mem.read (indexAddr s 0)).toNat * 100 +
        (t.mem.read (indexAddr s 1)).toNat * 10 + (t.mem.read (indexAddr s 2)).toNat ∧
      (t.mem.read (indexAddr s 0)).toNat ≤ 2 ∧ (t.mem.read (indexAddr s 1)).toNat ≤ 9 ∧
      (t.mem.read (indexAddr s 2)).toNat ≤ 9) ∧
    (4096 ≤ s.i.toNat + 2 → exec (.ldBVx x) s =
      .next { s with status := .halted (.memoryOutOfBounds (firstOutside s.i.toNat)) })

/-- FX55 stores V0 to VX at I to I + X; when one of these does not exist it stores nothing and faults at
the first (R87; I unchanged is the spec's decision D26). -/
def Obligations.StoreRegistersStores : Prop :=
  ∀ (x : Nibble) (s : State),
    (s.i.toNat + x.toNat < 4096 → ∃ t, exec (.storeRegs x) s = .next t ∧ t.pc = s.pc + 2#16 ∧
      t.i = s.i ∧ ∀ k, k ≤ x.toNat → t.mem.read (indexAddr s k) = s.getV (BitVec.ofNat 4 k)) ∧
    (4096 ≤ s.i.toNat + x.toNat → exec (.storeRegs x) s =
      .next { s with status := .halted (.memoryOutOfBounds (firstOutside s.i.toNat)) })

/-- FX65 loads V0 to VX from I to I + X and leaves the registers above; when one of the addresses does
not exist it loads nothing and faults at the first (R88; I unchanged is the spec's decision D26). -/
def Obligations.LoadRegistersLoads : Prop :=
  ∀ (x : Nibble) (s : State),
    (s.i.toNat + x.toNat < 4096 → ∃ t, exec (.loadRegs x) s = .next t ∧ t.pc = s.pc + 2#16 ∧
      t.i = s.i ∧ (∀ k, k ≤ x.toNat → t.getV (BitVec.ofNat 4 k) = s.mem.read (indexAddr s k)) ∧
      ∀ z, x.toNat < z.toNat → t.getV z = s.getV z) ∧
    (4096 ≤ s.i.toNat + x.toNat → exec (.loadRegs x) s =
      .next { s with status := .halted (.memoryOutOfBounds (firstOutside s.i.toNat)) })

/-- FX65 in any state that holds the memory and the I an FX55 left restores the registers it stored
(S9 of spec/95_test_vectors.md). -/
def Obligations.LoadRestoresStoredRegisters : Prop :=
  ∀ (x : Nibble) (s t u : State), s.i.toNat + x.toNat < 4096 → exec (.storeRegs x) s = .next t →
    u.mem = t.mem → u.i = t.i →
    ∃ w, exec (.loadRegs x) u = .next w ∧
      ∀ k, k ≤ x.toNat → w.getV (BitVec.ofNat 4 k) = s.getV (BitVec.ofNat 4 k)

/-! ## Framebuffer (spec/44_display.md) -/

/-- R91: CLS makes all 2048 pixels false, VF and every other register unchanged. -/
def Obligations.ClsClearsEveryPixel : Prop :=
  (∀ op : Word, op.toNat = 0x00E0 → decode op = .ok .cls) ∧
    ∀ s : State, ∃ t, exec .cls s = .next t ∧ t.pc = s.pc + 2#16 ∧
      (∀ x y, t.screen.pixel x y = false) ∧ t.v = s.v ∧ t.i = s.i ∧ t.sp = s.sp ∧
      t.stack = s.stack ∧ t.dt = s.dt ∧ t.st = s.st ∧ t.mem = s.mem

/-- DXYN inverts exactly the pixels the sprite's set bits reach, wrapped modulo 64 and 32, and VF = 1
exactly when one of them was lit; when a row does not exist nothing is drawn and it faults at the
first (R89, R90, R92; the row modulus is the spec's decision D8, the bit order D9). -/
def Obligations.DrwInvertsTheSpritePixels : Prop :=
  ∀ (x y n : Nibble) (s : State),
    (n.toNat = 0 ∨ s.i.toNat + n.toNat ≤ 4096 → ∃ t, exec (.drw x y n) s = .next t ∧
      t.pc = s.pc + 2#16 ∧
      (∀ px py, px < 64 → py < 32 →
        (SpriteHits s (s.getV x).toNat (s.getV y).toNat n.toNat px py →
          t.screen.pixel px py = !s.screen.pixel px py) ∧
        (¬ SpriteHits s (s.getV x).toNat (s.getV y).toNat n.toNat px py →
          t.screen.pixel px py = s.screen.pixel px py)) ∧
      ((∃ px py, SpriteHits s (s.getV x).toNat (s.getV y).toNat n.toNat px py ∧
          s.screen.pixel px py = true) → t.getV 0xF#4 = 1#8) ∧
      ((¬ ∃ px py, SpriteHits s (s.getV x).toNat (s.getV y).toNat n.toNat px py ∧
          s.screen.pixel px py = true) → t.getV 0xF#4 = 0#8)) ∧
    (0 < n.toNat → 4096 < s.i.toNat + n.toNat → exec (.drw x y n) s =
      .next { s with status := .halted (.memoryOutOfBounds (firstOutside s.i.toNat)) })

/-- Drawing the same sprite twice at the same place restores every pixel, and the second draw leaves
VF = 1 exactly when the sprite reaches a pixel that was unlit before the first (S7 of
spec/95_test_vectors.md; its words "VF=1 on the second draw" hold on a blank screen, log entry 29).
X and Y are not F: the first draw writes VF, so an origin held there would have moved. -/
def Obligations.DrawingTwiceRestores : Prop :=
  ∀ (x y n : Nibble) (s t : State), x ≠ 0xF#4 → y ≠ 0xF#4 →
    (n.toNat = 0 ∨ s.i.toNat + n.toNat ≤ 4096) → exec (.drw x y n) s = .next t →
    ∃ u, exec (.drw x y n) t = .next u ∧
      (∀ px py, px < 64 → py < 32 → u.screen.pixel px py = s.screen.pixel px py) ∧
      (u.getV 0xF#4 = 1#8 ↔
        ∃ px py, SpriteHits s (s.getV x).toNat (s.getV y).toNat n.toNat px py ∧
          s.screen.pixel px py = false)

/-! ## Keys and timers (spec/45_keys_timers.md) -/

/-- EX9E and EXA1 skip when the key VX names is, or is not, pressed, and fault when VX is above 15
(R93, R94; the fault is the spec's decision D5). -/
def Obligations.KeySkipsOrFault : Prop :=
  ∀ (x : Nibble) (s : State),
    (∀ k : Nibble, (s.getV x).toNat = k.toNat →
      (∃ t, exec (.skp x) s = .next t ∧ t.v = s.v ∧
        t.pc = if s.getKey k = true then s.pc + 4#16 else s.pc + 2#16) ∧
      ∃ t, exec (.sknp x) s = .next t ∧ t.v = s.v ∧
        t.pc = if s.getKey k = true then s.pc + 2#16 else s.pc + 4#16) ∧
    (15 < (s.getV x).toNat →
      exec (.skp x) s = .next { s with status := .halted (.keyIndexOutOfRange (s.getV x)) } ∧
      exec (.sknp x) s = .next { s with status := .halted (.keyIndexOutOfRange (s.getV x)) })

/-- R95, R96, R97: VX from DT, DT from VX, ST from VX. -/
def Obligations.TimerMoves : Prop :=
  (∀ op : Word, op.toNat / 4096 = 0xF →
      (op.toNat % 256 = 0x07 → decode op = .ok (.ldVxDT (numX op))) ∧
      (op.toNat % 256 = 0x15 → decode op = .ok (.ldDTVx (numX op))) ∧
      (op.toNat % 256 = 0x18 → decode op = .ok (.ldSTVx (numX op)))) ∧
    ∀ (x : Nibble) (s : State),
      (∃ t, exec (.ldVxDT x) s = .next t ∧ t.pc = s.pc + 2#16 ∧ t.getV x = s.dt ∧ t.dt = s.dt ∧
        ∀ z, z ≠ x → t.getV z = s.getV z) ∧
      (∃ t, exec (.ldDTVx x) s = .next t ∧ t.pc = s.pc + 2#16 ∧ t.dt = s.getV x ∧ t.st = s.st ∧
        t.v = s.v) ∧
      ∃ t, exec (.ldSTVx x) s = .next t ∧ t.pc = s.pc + 2#16 ∧ t.st = s.getV x ∧ t.dt = s.dt ∧
        t.v = s.v

/-- FX0A puts the least pressed key into VX; with none pressed the cycle leaves the whole state as it
was, PC at the FX0A (R98; level-sensitive by the spec's decision D11). -/
def Obligations.WaitForKeyPolls : Prop :=
  ∀ (x : Nibble) (s : State),
    (∀ k : Nibble, s.getKey k = true → (∀ j : Nibble, j.toNat < k.toNat → s.getKey j = false) →
      ∃ t, exec (.ldVxK x) s = .next t ∧ t.pc = s.pc + 2#16 ∧ (t.getV x).toNat = k.toNat ∧
        ∀ z, z ≠ x → t.getV z = s.getV z) ∧
    ((∀ k, s.getKey k = false) → exec (.ldVxK x) s = .next s)

/-! ## Frames (spec/40_cycle.md R58: that an instruction changes only what its rule writes is the spec's
decision D26). A cycle that faults changes the status alone. -/

/-- NOP, JP, the skips and JP V0 change PC alone; RET also SP; CALL also SP and the entry it pushes. -/
def Obligations.FrameOfControlFlow : Prop :=
  (∀ (i : Instr) (x y : Nibble) (nn : Byte) (nnn : Imm12) (s t : State),
      i ∈ [.nop, .jp nnn, .seByte x nn, .sneByte x nn, .seReg x y, .sneReg x y, .jpV0 nnn] →
      exec i s = .next t → FrameExcept (fun p => p = .pc) s t) ∧
    (∀ s t : State, exec .ret s = .next t →
      t = { s with status := .halted .stackUnderflow } ∨
        FrameExcept (fun p => p = .pc ∨ p = .sp) s t) ∧
    ∀ (nnn : Imm12) (s t : State), exec (.call nnn) s = .next t →
      t = { s with status := .halted .stackOverflow } ∨
        FrameExcept (fun p => p = .pc ∨ p = .sp ∨ ∃ k : Fin 16, k.val = s.sp.val ∧ p = .stack k) s t

/-- The loads, 7XNN and the logic write VX; the flag writers also VF; CXNN also the model's own draw
counter. -/
def Obligations.FrameOfAlu : Prop :=
  ∀ (x y : Nibble) (nn : Byte) (i : Instr) (s t : State), exec i s = .next t →
    (i ∈ [.ldByte x nn, .addByte x nn, .ldReg x y, .orReg x y, .andReg x y, .xorReg x y] →
      FrameExcept (fun p => p = .pc ∨ p = .v x) s t) ∧
    (i ∈ [.addReg x y, .subReg x y, .shr x y, .subnReg x y, .shl x y] →
      FrameExcept (fun p => p = .pc ∨ p = .v x ∨ p = .v 0xF#4) s t) ∧
    (i = .rnd x nn → FrameExcept (fun p => p = .pc ∨ p = .v x ∨ p = .draws) s t)

/-- ANNN, FX1E and FX29 write I; FX33 the three bytes from I on and FX55 the X + 1 bytes from I on, no
other byte of memory; FX65 the registers up to VX. -/
def Obligations.FrameOfIndexAndMemory : Prop :=
  ∀ (x : Nibble) (nnn : Imm12) (s t : State),
    (exec (.ldI nnn) s = .next t → FrameExcept (fun p => p = .pc ∨ p = .i) s t) ∧
    (exec (.ldFVx x) s = .next t → FrameExcept (fun p => p = .pc ∨ p = .i) s t) ∧
    (exec (.addIVx x) s = .next t →
      (∃ sum, t = { s with status := .halted (.indexOverflow sum) }) ∨
        FrameExcept (fun p => p = .pc ∨ p = .i) s t) ∧
    (exec (.ldBVx x) s = .next t →
      (∃ a, t = { s with status := .halted (.memoryOutOfBounds a) }) ∨
        FrameExcept (fun p => p = .pc ∨ ∃ k, k < 3 ∧ p = .mem (indexAddr s k)) s t) ∧
    (exec (.storeRegs x) s = .next t →
      (∃ a, t = { s with status := .halted (.memoryOutOfBounds a) }) ∨
        FrameExcept (fun p => p = .pc ∨ ∃ k, k ≤ x.toNat ∧ p = .mem (indexAddr s k)) s t) ∧
    (exec (.loadRegs x) s = .next t →
      (∃ a, t = { s with status := .halted (.memoryOutOfBounds a) }) ∨
        FrameExcept (fun p => p = .pc ∨ ∃ z : Nibble, z.toNat ≤ x.toNat ∧ p = .v z) s t)

/-- CLS changes pixels alone; DXYN the pixels its sprite reaches, and VF. -/
def Obligations.FrameOfDisplay : Prop :=
  (∀ s t : State, exec .cls s = .next t →
      FrameExcept (fun p => p = .pc ∨ ∃ px py, p = .pixel px py) s t) ∧
    ∀ (x y n : Nibble) (s t : State), exec (.drw x y n) s = .next t →
      (∃ a, t = { s with status := .halted (.memoryOutOfBounds a) }) ∨
        FrameExcept (fun p => p = .pc ∨ p = .v 0xF#4 ∨ ∃ px py, p = .pixel px py ∧
          SpriteHits s (s.getV x).toNat (s.getV y).toNat n.toNat (px % 64) (py % 32)) s t

/-- The key skips change PC alone; FX07 and FX0A write VX, FX15 DT, FX18 ST. -/
def Obligations.FrameOfKeysAndTimers : Prop :=
  ∀ (x : Nibble) (s t : State),
    (exec (.skp x) s = .next t → (∃ k, t = { s with status := .halted (.keyIndexOutOfRange k) }) ∨
      FrameExcept (fun p => p = .pc) s t) ∧
    (exec (.sknp x) s = .next t → (∃ k, t = { s with status := .halted (.keyIndexOutOfRange k) }) ∨
      FrameExcept (fun p => p = .pc) s t) ∧
    (exec (.ldVxDT x) s = .next t → FrameExcept (fun p => p = .pc ∨ p = .v x) s t) ∧
    (exec (.ldVxK x) s = .next t → FrameExcept (fun p => p = .pc ∨ p = .v x) s t) ∧
    (exec (.ldDTVx x) s = .next t → FrameExcept (fun p => p = .pc ∨ p = .dt) s t) ∧
    (exec (.ldSTVx x) s = .next t → FrameExcept (fun p => p = .pc ∨ p = .st) s t)
end

