-- ==== Sys2Proof/Laws/Decode.lean ====
section
/-! SUPPORT. The opcode's fields and forms as numbers (spec/30_encoding.md R40): each field of each
form is the operand put there, and a word is the form of its own fields. -/

namespace Sys2Proof

/-- A concatenation as a number (R7: `hi ++ lo`). -/
theorem toNat_concat {m n : Nat} (a : BitVec m) (b : BitVec n) :
    (a ++ b).toNat = a.toNat * 2 ^ n + b.toNat := by
  rw [BitVec.toNat_append, ← Nat.shiftLeft_add_eq_or_of_lt b.isLt, Nat.shiftLeft_eq]

theorem toNat_formXYN (d x y n : Nibble) :
    (formXYN d x y n).toNat = d.toNat * 4096 + x.toNat * 256 + y.toNat * 16 + n.toNat := by
  rw [formXYN, toNat_concat, toNat_concat, toNat_concat]; omega

theorem toNat_formXNN (d x : Nibble) (nn : Byte) :
    (formXNN d x nn).toNat = d.toNat * 4096 + x.toNat * 256 + nn.toNat := by
  rw [formXNN, toNat_concat, toNat_concat]; omega

theorem toNat_formNNN (d : Nibble) (nnn : Imm12) :
    (formNNN d nnn).toNat = d.toNat * 4096 + nnn.toNat := by
  exact toNat_concat d nnn

/-- Big-endian: the byte at the lower address counts 256 (R31). -/
theorem toNat_opcodeOfBytes (hi lo : Byte) :
    (opcodeOfBytes hi lo).toNat = hi.toNat * 256 + lo.toNat := by
  exact toNat_concat hi lo

theorem toNat_digit1 (op : Word) : (digit1 op).toNat = op.toNat / 4096 := by
  have := op.isLt
  simp only [digit1, BitVec.extractLsb'_toNat]; omega

theorem toNat_fieldX (op : Word) : (fieldX op).toNat = op.toNat / 256 % 16 := by
  have := op.isLt
  simp only [fieldX, BitVec.extractLsb'_toNat]; omega

theorem toNat_fieldY (op : Word) : (fieldY op).toNat = op.toNat / 16 % 16 := by
  have := op.isLt
  simp only [fieldY, BitVec.extractLsb'_toNat]; omega

theorem toNat_fieldN (op : Word) : (fieldN op).toNat = op.toNat % 16 := by
  have := op.isLt
  simp only [fieldN, BitVec.extractLsb'_toNat]; omega

theorem toNat_fieldNN (op : Word) : (fieldNN op).toNat = op.toNat % 256 := by
  have := op.isLt
  simp only [fieldNN, BitVec.extractLsb'_toNat]; omega

theorem toNat_fieldNNN (op : Word) : (fieldNNN op).toNat = op.toNat % 4096 := by
  have := op.isLt
  simp only [fieldNNN, BitVec.extractLsb'_toNat]; omega

theorem toNat_hiByte (op : Word) : (hiByte op).toNat = op.toNat / 256 := by
  have := op.isLt
  simp only [hiByte, BitVec.extractLsb'_toNat]; omega

theorem toNat_loByte (op : Word) : (loByte op).toNat = op.toNat % 256 := by
  have := op.isLt
  simp only [loByte, BitVec.extractLsb'_toNat]; omega

@[simp] theorem digit1_formXYN (d x y n : Nibble) : digit1 (formXYN d x y n) = d := by
  apply BitVec.eq_of_toNat_eq
  rw [toNat_digit1, toNat_formXYN]
  omega

@[simp] theorem fieldX_formXYN (d x y n : Nibble) : fieldX (formXYN d x y n) = x := by
  apply BitVec.eq_of_toNat_eq
  rw [toNat_fieldX, toNat_formXYN]
  omega

@[simp] theorem fieldY_formXYN (d x y n : Nibble) : fieldY (formXYN d x y n) = y := by
  apply BitVec.eq_of_toNat_eq
  rw [toNat_fieldY, toNat_formXYN]
  omega

@[simp] theorem fieldN_formXYN (d x y n : Nibble) : fieldN (formXYN d x y n) = n := by
  apply BitVec.eq_of_toNat_eq
  rw [toNat_fieldN, toNat_formXYN]
  omega

/-- A word is the XYN form of its own fields (R40). -/
theorem formXYN_fields (op : Word) : formXYN (digit1 op) (fieldX op) (fieldY op) (fieldN op) = op := by
  apply BitVec.eq_of_toNat_eq
  rw [toNat_formXYN, toNat_digit1, toNat_fieldX, toNat_fieldY, toNat_fieldN]
  omega

@[simp] theorem digit1_formXNN (d x : Nibble) (nn : Byte) : digit1 (formXNN d x nn) = d := by
  apply BitVec.eq_of_toNat_eq
  rw [toNat_digit1, toNat_formXNN]
  omega

@[simp] theorem fieldX_formXNN (d x : Nibble) (nn : Byte) : fieldX (formXNN d x nn) = x := by
  apply BitVec.eq_of_toNat_eq
  rw [toNat_fieldX, toNat_formXNN]
  omega

@[simp] theorem fieldNN_formXNN (d x : Nibble) (nn : Byte) : fieldNN (formXNN d x nn) = nn := by
  apply BitVec.eq_of_toNat_eq
  rw [toNat_fieldNN, toNat_formXNN]
  omega

/-- A word is the XNN form of its own fields (R40). -/
theorem formXNN_fields (op : Word) : formXNN (digit1 op) (fieldX op) (fieldNN op) = op := by
  apply BitVec.eq_of_toNat_eq
  rw [toNat_formXNN, toNat_digit1, toNat_fieldX, toNat_fieldNN]
  omega

@[simp] theorem digit1_formNNN (d : Nibble) (nnn : Imm12) : digit1 (formNNN d nnn) = d := by
  apply BitVec.eq_of_toNat_eq
  rw [toNat_digit1, toNat_formNNN]
  omega

@[simp] theorem fieldNNN_formNNN (d : Nibble) (nnn : Imm12) : fieldNNN (formNNN d nnn) = nnn := by
  apply BitVec.eq_of_toNat_eq
  rw [toNat_fieldNNN, toNat_formNNN]
  omega

/-- A word is the NNN form of its own fields (R40). -/
theorem formNNN_fields (op : Word) : formNNN (digit1 op) (fieldNNN op) = op := by
  apply BitVec.eq_of_toNat_eq
  rw [toNat_formNNN, toNat_digit1, toNat_fieldNNN]
  omega

/-- The two bytes of a word give it back (R31). -/
@[simp] theorem opcodeOfBytes_bytes (op : Word) : opcodeOfBytes (hiByte op) (loByte op) = op := by
  apply BitVec.eq_of_toNat_eq
  rw [toNat_opcodeOfBytes, toNat_hiByte, toNat_loByte]
  omega

@[simp] theorem tableOpcode_toNat (op : Word) : tableOpcode 16 op.toNat = op := by
  apply BitVec.eq_of_toNat_eq
  simp [tableOpcode, Nat.mod_eq_of_lt op.isLt]

/-- What the table's reading of a word is: the decoder's own answer on it. -/
theorem decodeTableWord_eq (op : Word) :
    decodeTableWord 16 op.toNat = (match decode op with | .ok i => some i | .error _ => none) := by
  simp only [decodeTableWord, decodeBytes, tableOpcode_toNat, opcodeOfBytes_bytes]
  cases decode op <;> rfl

/-! ### The opcode map by digit1 (R42) -/

/-- The sixteen values of a nibble. -/
theorem nibble_cases (d : Nibble) :
    d = 0x0#4 ∨ d = 0x1#4 ∨ d = 0x2#4 ∨ d = 0x3#4 ∨ d = 0x4#4 ∨ d = 0x5#4 ∨ d = 0x6#4 ∨ d = 0x7#4 ∨
      d = 0x8#4 ∨ d = 0x9#4 ∨ d = 0xA#4 ∨ d = 0xB#4 ∨ d = 0xC#4 ∨ d = 0xD#4 ∨ d = 0xE#4 ∨ d = 0xF#4 := by
  revert d; decide

theorem decode_of_digit0 {op : Word} (h : digit1 op = 0x0#4) : decode op = decode0 op := by
  simp [decode, h]

theorem decode_of_digit1 {op : Word} (h : digit1 op = 0x1#4) : decode op = .ok (.jp (fieldNNN op)) := by
  simp [decode, h]

theorem decode_of_digit2 {op : Word} (h : digit1 op = 0x2#4) : decode op = .ok (.call (fieldNNN op)) := by
  simp [decode, h]

theorem decode_of_digit3 {op : Word} (h : digit1 op = 0x3#4) : decode op = .ok (.seByte (fieldX op) (fieldNN op)) := by
  simp [decode, h]

theorem decode_of_digit4 {op : Word} (h : digit1 op = 0x4#4) : decode op = .ok (.sneByte (fieldX op) (fieldNN op)) := by
  simp [decode, h]

theorem decode_of_digit5 {op : Word} (h : digit1 op = 0x5#4) : decode op = decode5 op := by
  simp [decode, h]

theorem decode_of_digit6 {op : Word} (h : digit1 op = 0x6#4) : decode op = .ok (.ldByte (fieldX op) (fieldNN op)) := by
  simp [decode, h]

theorem decode_of_digit7 {op : Word} (h : digit1 op = 0x7#4) : decode op = .ok (.addByte (fieldX op) (fieldNN op)) := by
  simp [decode, h]

theorem decode_of_digit8 {op : Word} (h : digit1 op = 0x8#4) : decode op = decode8 op := by
  simp [decode, h]

theorem decode_of_digit9 {op : Word} (h : digit1 op = 0x9#4) : decode op = decode9 op := by
  simp [decode, h]

theorem decode_of_digitA {op : Word} (h : digit1 op = 0xA#4) : decode op = .ok (.ldI (fieldNNN op)) := by
  simp [decode, h]

theorem decode_of_digitB {op : Word} (h : digit1 op = 0xB#4) : decode op = .ok (.jpV0 (fieldNNN op)) := by
  simp [decode, h]

theorem decode_of_digitC {op : Word} (h : digit1 op = 0xC#4) : decode op = .ok (.rnd (fieldX op) (fieldNN op)) := by
  simp [decode, h]

theorem decode_of_digitD {op : Word} (h : digit1 op = 0xD#4) : decode op = .ok (.drw (fieldX op) (fieldY op) (fieldN op)) := by
  simp [decode, h]

theorem decode_of_digitE {op : Word} (h : digit1 op = 0xE#4) : decode op = decodeE op := by
  simp [decode, h]

theorem decode_of_digitF {op : Word} (h : digit1 op = 0xF#4) : decode op = decodeF op := by
  simp [decode, h]

theorem decode0_error {op : Word} {e : DecodeError} (h : decode0 op = .error e) :
    e = .invalidOpcode op := by
  simp only [decode0] at h
  repeat (first | (split at h) | (cases h; rfl) | cases h)

theorem decode5_error {op : Word} {e : DecodeError} (h : decode5 op = .error e) :
    e = .invalidOpcode op := by
  simp only [decode5] at h
  repeat (first | (split at h) | (cases h; rfl) | cases h)

theorem decode8_error {op : Word} {e : DecodeError} (h : decode8 op = .error e) :
    e = .invalidOpcode op := by
  simp only [decode8] at h
  repeat (first | (split at h) | (cases h; rfl) | cases h)

theorem decode9_error {op : Word} {e : DecodeError} (h : decode9 op = .error e) :
    e = .invalidOpcode op := by
  simp only [decode9] at h
  repeat (first | (split at h) | (cases h; rfl) | cases h)

theorem decodeE_error {op : Word} {e : DecodeError} (h : decodeE op = .error e) :
    e = .invalidOpcode op := by
  simp only [decodeE] at h
  repeat (first | (split at h) | (cases h; rfl) | cases h)

theorem decodeF_error {op : Word} {e : DecodeError} (h : decodeF op = .error e) :
    e = .invalidOpcode op := by
  simp only [decodeF] at h
  repeat (first | (split at h) | (cases h; rfl) | cases h)

/-- Decoding rejects a word by its own number only (R43). -/
theorem decode_error {op : Word} {e : DecodeError} (h : decode op = .error e) :
    e = .invalidOpcode op := by
  rcases nibble_cases (digit1 op) with d | d | d | d | d | d | d | d | d | d | d | d | d | d | d | d
  · exact decode0_error (decode_of_digit0 d ▸ h)
  · rw [decode_of_digit1 d] at h; cases h
  · rw [decode_of_digit2 d] at h; cases h
  · rw [decode_of_digit3 d] at h; cases h
  · rw [decode_of_digit4 d] at h; cases h
  · exact decode5_error (decode_of_digit5 d ▸ h)
  · rw [decode_of_digit6 d] at h; cases h
  · rw [decode_of_digit7 d] at h; cases h
  · exact decode8_error (decode_of_digit8 d ▸ h)
  · exact decode9_error (decode_of_digit9 d ▸ h)
  · rw [decode_of_digitA d] at h; cases h
  · rw [decode_of_digitB d] at h; cases h
  · rw [decode_of_digitC d] at h; cases h
  · rw [decode_of_digitD d] at h; cases h
  · exact decodeE_error (decode_of_digitE d ▸ h)
  · exact decodeF_error (decode_of_digitF d ▸ h)

end Sys2Proof
end

