-- ==== Sys2Proof/Laws/Memory.lean ====
section
/-! SUPPORT. The laws of memory: a read after a write, and that every memory operation keeps the
canonical form (spec/20_memory.md R24–R26, R35). None needs the canonical form to read right. -/

namespace Sys2Proof.Machine

theorem Memory.read_erase (m : Memory) (a b : Nat) :
    (m.erase a).read b = if b = a then Memory.unlisted a else m.read b := by
  induction m with
  | nil => by_cases h : b = a <;> simp [Memory.erase, Memory.read, h]
  | cons c rest ih =>
    obtain ⟨k, w⟩ := c
    simp only [Memory.erase]
    by_cases hk : k = a
    · rw [if_pos hk, ih]
      by_cases hb : b = a
      · simp [hb]
      · simp [Memory.read, hb, hk, Ne.symm hb]
    · rw [if_neg hk]
      by_cases hb : b = a
      · subst hb; simp [Memory.read, hk, ih]
      · simp [Memory.read, ih, hb]

theorem Memory.mem_erase {m : Memory} {a : Nat} {c : Host.Cell} (h : c ∈ m.erase a) :
    c ∈ m ∧ c.1 ≠ a := by
  induction m with
  | nil => simp [Memory.erase] at h
  | cons d rest ih =>
    obtain ⟨k, w⟩ := d
    simp only [Memory.erase] at h
    by_cases hk : k = a
    · rw [if_pos hk] at h
      exact ⟨List.mem_cons_of_mem _ (ih h).1, (ih h).2⟩
    · rw [if_neg hk] at h
      rcases List.mem_cons.mp h with rfl | h
      · exact ⟨List.mem_cons_self, hk⟩
      · exact ⟨List.mem_cons_of_mem _ (ih h).1, (ih h).2⟩

theorem Memory.pairwise_erase {m : Memory} {a : Nat} (h : m.Pairwise (fun c d => c.1 < d.1)) :
    (m.erase a).Pairwise (fun c d => c.1 < d.1) := by
  induction m with
  | nil => simp [Memory.erase]
  | cons c rest ih =>
    obtain ⟨k, w⟩ := c
    obtain ⟨hk, hrest⟩ := List.pairwise_cons.mp h
    simp only [Memory.erase]
    split
    · exact ih hrest
    · exact List.pairwise_cons.mpr ⟨fun d hd => hk d (Memory.mem_erase hd).1, ih hrest⟩

theorem Memory.mem_insert {m : Memory} {a : Nat} {v : Byte} {c : Host.Cell}
    (h : c ∈ m.insert a v) : c = (a, v) ∨ c ∈ m := by
  induction m with
  | nil => exact .inl (by simpa [Memory.insert] using h)
  | cons d rest ih =>
    obtain ⟨k, w⟩ := d
    simp only [Memory.insert] at h
    split at h
    · exact (List.mem_cons.mp h).imp id id
    · rcases List.mem_cons.mp h with rfl | h
      · exact .inr List.mem_cons_self
      · exact (ih h).imp id (List.mem_cons_of_mem _)

theorem Memory.pairwise_insert {m : Memory} {a : Nat} {v : Byte}
    (h : m.Pairwise (fun c d => c.1 < d.1)) (ha : ∀ c ∈ m, c.1 ≠ a) :
    (m.insert a v).Pairwise (fun c d => c.1 < d.1) := by
  induction m with
  | nil => simp [Memory.insert]
  | cons c rest ih =>
    obtain ⟨k, w⟩ := c
    obtain ⟨hk, hrest⟩ := List.pairwise_cons.mp h
    have hka : k ≠ a := ha (k, w) List.mem_cons_self
    simp only [Memory.insert]
    split
    · rename_i hlt
      refine List.pairwise_cons.mpr ⟨fun d hd => ?_, h⟩
      rcases List.mem_cons.mp hd with rfl | hd
      · exact hlt
      · exact Nat.lt_trans hlt (hk d hd)
    · rename_i hlt
      refine List.pairwise_cons.mpr
        ⟨fun d hd => ?_, ih hrest fun c hc => ha c (List.mem_cons_of_mem _ hc)⟩
      rcases Memory.mem_insert hd with rfl | hd
      · exact Nat.lt_of_le_of_ne (Nat.not_lt.mp hlt) hka
      · exact hk d hd

theorem Memory.read_insert {m : Memory} {a : Nat} {v : Byte} (ha : ∀ c ∈ m, c.1 ≠ a) (b : Nat) :
    (m.insert a v).read b = if b = a then v else m.read b := by
  induction m with
  | nil => simp [Memory.insert, Memory.read, eq_comm]
  | cons c rest ih =>
    obtain ⟨k, w⟩ := c
    have hka : k ≠ a := ha (k, w) List.mem_cons_self
    have ih := ih fun c hc => ha c (List.mem_cons_of_mem _ hc)
    simp only [Memory.insert]
    split
    · by_cases h : b = a
      · simp [Memory.read, h]
      · simp [Memory.read, h, Ne.symm h]
    · by_cases h : b = a
      · subst h; simp [Memory.read, hka, ih]
      · simp [Memory.read, ih, h]

/-- A read after a write: the byte written at its address, and every other address as before
(R25, R26, R35). -/
theorem Memory.read_write (m : Memory) (a : Nat) (v : Byte) (b : Nat) :
    (m.write a v).read b = if b = a then v else m.read b := by
  simp only [Memory.write]
  split
  · rename_i hv
    rw [Memory.read_erase]
    by_cases h : b = a <;> simp [h, hv]
  · rw [Memory.read_insert fun c hc => (Memory.mem_erase hc).2, Memory.read_erase]
    by_cases h : b = a <;> simp [h]

/-- A write at an address that exists keeps the canonical form. -/
theorem Memory.write_wf {m : Memory} {a : Nat} (v : Byte) (h : m.wf) (ha : a < 4096) :
    (m.write a v).wf := by
  obtain ⟨hp, hc⟩ := h
  simp only [Memory.write]
  split
  · exact ⟨Memory.pairwise_erase hp, fun c hm => hc c (Memory.mem_erase hm).1⟩
  · rename_i hv
    refine ⟨Memory.pairwise_insert (Memory.pairwise_erase hp) fun c hm => (Memory.mem_erase hm).2,
      fun c hm => ?_⟩
    rcases Memory.mem_insert hm with rfl | hm
    · exact ⟨ha, hv⟩
    · exact hc c (Memory.mem_erase hm).1

/-- The reset memory is in the canonical form. -/
theorem reset_mem_wf : State.reset.mem.wf := by
  simp [State.reset, Memory.wf]

/-- What `MemRead` answers (R25). -/
theorem memRead_eq_ok {s : State} {a : Nat} {b : Byte} :
    memRead s a = .ok b ↔ a < 4096 ∧ b = s.mem.read a := by
  by_cases h : 4096 ≤ a
  · simp only [memRead, Config.memSize, if_pos h, reduceCtorEq, false_iff]; omega
  · simp [memRead, h, eq_comm, Nat.lt_of_not_le h]

theorem memRead_of_lt {s : State} {a : Nat} (h : a < 4096) : memRead s a = .ok (s.mem.read a) :=
  memRead_eq_ok.mpr ⟨h, rfl⟩

theorem memRead_of_ge {s : State} {a : Nat} (h : 4096 ≤ a) :
    memRead s a = .error (.memoryOutOfBounds a) := by
  simp [memRead, h]

/-- What `MemWrite` answers (R26). -/
theorem memWrite_eq_ok {s t : State} {a : Nat} {v : Byte} :
    memWrite s a v = .ok t ↔ a < 4096 ∧ t = { s with mem := s.mem.write a v } := by
  by_cases h : 4096 ≤ a
  · simp only [memWrite, Config.memSize, if_pos h, reduceCtorEq, false_iff]; omega
  · simp [memWrite, h, eq_comm, Nat.lt_of_not_le h]

theorem memWrite_of_lt {s : State} {a : Nat} {v : Byte} (h : a < 4096) :
    memWrite s a v = .ok { s with mem := s.mem.write a v } :=
  memWrite_eq_ok.mpr ⟨h, rfl⟩

theorem memWrite_of_ge {s : State} {a : Nat} {v : Byte} (h : 4096 ≤ a) :
    memWrite s a v = .error (.memoryOutOfBounds a) := by
  simp [memWrite, h]

/-- Bytes copied into memory read back, and every other address as before (R113). -/
theorem read_copyBytes (bs : List Byte) (m : Memory) (a b : Nat) :
    (copyBytes m a bs).read b =
      if a ≤ b ∧ b < a + bs.length then bs.getD (b - a) 0#8 else m.read b := by
  induction bs generalizing m a with
  | nil => rw [if_neg (by simp only [List.length_nil]; omega)]; rfl
  | cons v vs ih =>
    rw [copyBytes, ih, Memory.read_write]
    by_cases hb : b = a
    · subst hb
      rw [if_neg (by omega), if_pos rfl, if_pos (by simp)]
      simp
    · by_cases hin : a ≤ b ∧ b < a + (v :: vs).length
      · obtain ⟨h1, h2⟩ := hin
        simp only [List.length_cons] at h2
        rw [if_pos (by omega), if_pos ⟨h1, by simp only [List.length_cons]; omega⟩]
        obtain ⟨k, hk⟩ : ∃ k, b - a = k + 1 := ⟨b - a - 1, by omega⟩
        rw [hk, show b - (a + 1) = k by omega]
        simp
      · simp only [List.length_cons] at hin
        rw [if_neg (by omega), if_neg hb, if_neg (by simp only [List.length_cons]; omega)]

/-- Copying bytes to addresses that exist keeps the canonical form. -/
theorem copyBytes_wf {bs : List Byte} {m : Memory} {a : Nat} (h : m.wf)
    (ha : a + bs.length ≤ 4096) : (copyBytes m a bs).wf := by
  induction bs generalizing m a with
  | nil => exact h
  | cons v vs ih =>
    simp only [List.length_cons] at ha
    exact ih (Memory.write_wf v h (by omega)) (by omega)

end Sys2Proof.Machine
end

