-- ==== Sys2Proof/Laws/State.lean ====
section
/-! SUPPORT. One lemma per field per update of the state, each true by definition, and the register,
stack and key reads after each update, so that no proof unfolds a record update. -/

namespace Sys2Proof.Machine

/-! ### `setV` -/

@[simp] theorem setV_v (s : State) (x : Nibble) (b : Byte) : (s.setV x b).v = s.v.set x.toNat b x.isLt := rfl
@[simp] theorem setV_i (s : State) (x : Nibble) (b : Byte) : (s.setV x b).i = s.i := rfl
@[simp] theorem setV_pc (s : State) (x : Nibble) (b : Byte) : (s.setV x b).pc = s.pc := rfl
@[simp] theorem setV_sp (s : State) (x : Nibble) (b : Byte) : (s.setV x b).sp = s.sp := rfl
@[simp] theorem setV_stack (s : State) (x : Nibble) (b : Byte) : (s.setV x b).stack = s.stack := rfl
@[simp] theorem setV_dt (s : State) (x : Nibble) (b : Byte) : (s.setV x b).dt = s.dt := rfl
@[simp] theorem setV_st (s : State) (x : Nibble) (b : Byte) : (s.setV x b).st = s.st := rfl
@[simp] theorem setV_key (s : State) (x : Nibble) (b : Byte) : (s.setV x b).key = s.key := rfl
@[simp] theorem setV_screen (s : State) (x : Nibble) (b : Byte) : (s.setV x b).screen = s.screen := rfl
@[simp] theorem setV_mem (s : State) (x : Nibble) (b : Byte) : (s.setV x b).mem = s.mem := rfl
@[simp] theorem setV_status (s : State) (x : Nibble) (b : Byte) : (s.setV x b).status = s.status := rfl
@[simp] theorem setV_draws (s : State) (x : Nibble) (b : Byte) : (s.setV x b).draws = s.draws := rfl
@[simp] theorem setV_getStack (s : State) (x : Nibble) (b : Byte) (k : Fin 16) : (s.setV x b).getStack k = s.getStack k := rfl
@[simp] theorem setV_getKey (s : State) (x : Nibble) (b : Byte) (k : Nibble) : (s.setV x b).getKey k = s.getKey k := rfl

/-! ### `setI` -/

@[simp] theorem setI_v (s : State) (w : Word) : (s.setI w).v = s.v := rfl
@[simp] theorem setI_i (s : State) (w : Word) : (s.setI w).i = w := rfl
@[simp] theorem setI_pc (s : State) (w : Word) : (s.setI w).pc = s.pc := rfl
@[simp] theorem setI_sp (s : State) (w : Word) : (s.setI w).sp = s.sp := rfl
@[simp] theorem setI_stack (s : State) (w : Word) : (s.setI w).stack = s.stack := rfl
@[simp] theorem setI_dt (s : State) (w : Word) : (s.setI w).dt = s.dt := rfl
@[simp] theorem setI_st (s : State) (w : Word) : (s.setI w).st = s.st := rfl
@[simp] theorem setI_key (s : State) (w : Word) : (s.setI w).key = s.key := rfl
@[simp] theorem setI_screen (s : State) (w : Word) : (s.setI w).screen = s.screen := rfl
@[simp] theorem setI_mem (s : State) (w : Word) : (s.setI w).mem = s.mem := rfl
@[simp] theorem setI_status (s : State) (w : Word) : (s.setI w).status = s.status := rfl
@[simp] theorem setI_draws (s : State) (w : Word) : (s.setI w).draws = s.draws := rfl
@[simp] theorem setI_getV (s : State) (w : Word) (y : Nibble) : (s.setI w).getV y = s.getV y := rfl
@[simp] theorem setI_getStack (s : State) (w : Word) (k : Fin 16) : (s.setI w).getStack k = s.getStack k := rfl
@[simp] theorem setI_getKey (s : State) (w : Word) (k : Nibble) : (s.setI w).getKey k = s.getKey k := rfl

/-! ### `setPc` -/

@[simp] theorem setPc_v (s : State) (w : Word) : (s.setPc w).v = s.v := rfl
@[simp] theorem setPc_i (s : State) (w : Word) : (s.setPc w).i = s.i := rfl
@[simp] theorem setPc_pc (s : State) (w : Word) : (s.setPc w).pc = w := rfl
@[simp] theorem setPc_sp (s : State) (w : Word) : (s.setPc w).sp = s.sp := rfl
@[simp] theorem setPc_stack (s : State) (w : Word) : (s.setPc w).stack = s.stack := rfl
@[simp] theorem setPc_dt (s : State) (w : Word) : (s.setPc w).dt = s.dt := rfl
@[simp] theorem setPc_st (s : State) (w : Word) : (s.setPc w).st = s.st := rfl
@[simp] theorem setPc_key (s : State) (w : Word) : (s.setPc w).key = s.key := rfl
@[simp] theorem setPc_screen (s : State) (w : Word) : (s.setPc w).screen = s.screen := rfl
@[simp] theorem setPc_mem (s : State) (w : Word) : (s.setPc w).mem = s.mem := rfl
@[simp] theorem setPc_status (s : State) (w : Word) : (s.setPc w).status = s.status := rfl
@[simp] theorem setPc_draws (s : State) (w : Word) : (s.setPc w).draws = s.draws := rfl
@[simp] theorem setPc_getV (s : State) (w : Word) (y : Nibble) : (s.setPc w).getV y = s.getV y := rfl
@[simp] theorem setPc_getStack (s : State) (w : Word) (k : Fin 16) : (s.setPc w).getStack k = s.getStack k := rfl
@[simp] theorem setPc_getKey (s : State) (w : Word) (k : Nibble) : (s.setPc w).getKey k = s.getKey k := rfl

/-! ### `setDt` -/

@[simp] theorem setDt_v (s : State) (b : Byte) : (s.setDt b).v = s.v := rfl
@[simp] theorem setDt_i (s : State) (b : Byte) : (s.setDt b).i = s.i := rfl
@[simp] theorem setDt_pc (s : State) (b : Byte) : (s.setDt b).pc = s.pc := rfl
@[simp] theorem setDt_sp (s : State) (b : Byte) : (s.setDt b).sp = s.sp := rfl
@[simp] theorem setDt_stack (s : State) (b : Byte) : (s.setDt b).stack = s.stack := rfl
@[simp] theorem setDt_dt (s : State) (b : Byte) : (s.setDt b).dt = b := rfl
@[simp] theorem setDt_st (s : State) (b : Byte) : (s.setDt b).st = s.st := rfl
@[simp] theorem setDt_key (s : State) (b : Byte) : (s.setDt b).key = s.key := rfl
@[simp] theorem setDt_screen (s : State) (b : Byte) : (s.setDt b).screen = s.screen := rfl
@[simp] theorem setDt_mem (s : State) (b : Byte) : (s.setDt b).mem = s.mem := rfl
@[simp] theorem setDt_status (s : State) (b : Byte) : (s.setDt b).status = s.status := rfl
@[simp] theorem setDt_draws (s : State) (b : Byte) : (s.setDt b).draws = s.draws := rfl
@[simp] theorem setDt_getV (s : State) (b : Byte) (y : Nibble) : (s.setDt b).getV y = s.getV y := rfl
@[simp] theorem setDt_getStack (s : State) (b : Byte) (k : Fin 16) : (s.setDt b).getStack k = s.getStack k := rfl
@[simp] theorem setDt_getKey (s : State) (b : Byte) (k : Nibble) : (s.setDt b).getKey k = s.getKey k := rfl

/-! ### `setSt` -/

@[simp] theorem setSt_v (s : State) (b : Byte) : (s.setSt b).v = s.v := rfl
@[simp] theorem setSt_i (s : State) (b : Byte) : (s.setSt b).i = s.i := rfl
@[simp] theorem setSt_pc (s : State) (b : Byte) : (s.setSt b).pc = s.pc := rfl
@[simp] theorem setSt_sp (s : State) (b : Byte) : (s.setSt b).sp = s.sp := rfl
@[simp] theorem setSt_stack (s : State) (b : Byte) : (s.setSt b).stack = s.stack := rfl
@[simp] theorem setSt_dt (s : State) (b : Byte) : (s.setSt b).dt = s.dt := rfl
@[simp] theorem setSt_st (s : State) (b : Byte) : (s.setSt b).st = b := rfl
@[simp] theorem setSt_key (s : State) (b : Byte) : (s.setSt b).key = s.key := rfl
@[simp] theorem setSt_screen (s : State) (b : Byte) : (s.setSt b).screen = s.screen := rfl
@[simp] theorem setSt_mem (s : State) (b : Byte) : (s.setSt b).mem = s.mem := rfl
@[simp] theorem setSt_status (s : State) (b : Byte) : (s.setSt b).status = s.status := rfl
@[simp] theorem setSt_draws (s : State) (b : Byte) : (s.setSt b).draws = s.draws := rfl
@[simp] theorem setSt_getV (s : State) (b : Byte) (y : Nibble) : (s.setSt b).getV y = s.getV y := rfl
@[simp] theorem setSt_getStack (s : State) (b : Byte) (k : Fin 16) : (s.setSt b).getStack k = s.getStack k := rfl
@[simp] theorem setSt_getKey (s : State) (b : Byte) (k : Nibble) : (s.setSt b).getKey k = s.getKey k := rfl

/-! ### `setKeyFlag` -/

@[simp] theorem setKeyFlag_v (s : State) (k : Nibble) (b : Bool) : (s.setKeyFlag k b).v = s.v := rfl
@[simp] theorem setKeyFlag_i (s : State) (k : Nibble) (b : Bool) : (s.setKeyFlag k b).i = s.i := rfl
@[simp] theorem setKeyFlag_pc (s : State) (k : Nibble) (b : Bool) : (s.setKeyFlag k b).pc = s.pc := rfl
@[simp] theorem setKeyFlag_sp (s : State) (k : Nibble) (b : Bool) : (s.setKeyFlag k b).sp = s.sp := rfl
@[simp] theorem setKeyFlag_stack (s : State) (k : Nibble) (b : Bool) : (s.setKeyFlag k b).stack = s.stack := rfl
@[simp] theorem setKeyFlag_dt (s : State) (k : Nibble) (b : Bool) : (s.setKeyFlag k b).dt = s.dt := rfl
@[simp] theorem setKeyFlag_st (s : State) (k : Nibble) (b : Bool) : (s.setKeyFlag k b).st = s.st := rfl
@[simp] theorem setKeyFlag_key (s : State) (k : Nibble) (b : Bool) : (s.setKeyFlag k b).key = s.key.set k.toNat b k.isLt := rfl
@[simp] theorem setKeyFlag_screen (s : State) (k : Nibble) (b : Bool) : (s.setKeyFlag k b).screen = s.screen := rfl
@[simp] theorem setKeyFlag_mem (s : State) (k : Nibble) (b : Bool) : (s.setKeyFlag k b).mem = s.mem := rfl
@[simp] theorem setKeyFlag_status (s : State) (k : Nibble) (b : Bool) : (s.setKeyFlag k b).status = s.status := rfl
@[simp] theorem setKeyFlag_draws (s : State) (k : Nibble) (b : Bool) : (s.setKeyFlag k b).draws = s.draws := rfl
@[simp] theorem setKeyFlag_getV (s : State) (k : Nibble) (b : Bool) (y : Nibble) : (s.setKeyFlag k b).getV y = s.getV y := rfl
@[simp] theorem setKeyFlag_getStack (s : State) (k : Nibble) (b : Bool) (j : Fin 16) : (s.setKeyFlag k b).getStack j = s.getStack j := rfl

/-! ### `fetched` -/

@[simp] theorem fetched_v (s : State) : (fetched s).v = s.v := rfl
@[simp] theorem fetched_i (s : State) : (fetched s).i = s.i := rfl
@[simp] theorem fetched_pc (s : State) : (fetched s).pc = s.pc + 2#16 := rfl
@[simp] theorem fetched_sp (s : State) : (fetched s).sp = s.sp := rfl
@[simp] theorem fetched_stack (s : State) : (fetched s).stack = s.stack := rfl
@[simp] theorem fetched_dt (s : State) : (fetched s).dt = s.dt := rfl
@[simp] theorem fetched_st (s : State) : (fetched s).st = s.st := rfl
@[simp] theorem fetched_key (s : State) : (fetched s).key = s.key := rfl
@[simp] theorem fetched_screen (s : State) : (fetched s).screen = s.screen := rfl
@[simp] theorem fetched_mem (s : State) : (fetched s).mem = s.mem := rfl
@[simp] theorem fetched_status (s : State) : (fetched s).status = s.status := rfl
@[simp] theorem fetched_draws (s : State) : (fetched s).draws = s.draws := rfl
@[simp] theorem fetched_getV (s : State) (y : Nibble) : (fetched s).getV y = s.getV y := rfl
@[simp] theorem fetched_getStack (s : State) (k : Fin 16) : (fetched s).getStack k = s.getStack k := rfl
@[simp] theorem fetched_getKey (s : State) (k : Nibble) : (fetched s).getKey k = s.getKey k := rfl

/-! ### `takeFault` -/

@[simp] theorem takeFault_v (s : State) (f : Fault) : (takeFault f s).v = s.v := rfl
@[simp] theorem takeFault_i (s : State) (f : Fault) : (takeFault f s).i = s.i := rfl
@[simp] theorem takeFault_pc (s : State) (f : Fault) : (takeFault f s).pc = s.pc := rfl
@[simp] theorem takeFault_sp (s : State) (f : Fault) : (takeFault f s).sp = s.sp := rfl
@[simp] theorem takeFault_stack (s : State) (f : Fault) : (takeFault f s).stack = s.stack := rfl
@[simp] theorem takeFault_dt (s : State) (f : Fault) : (takeFault f s).dt = s.dt := rfl
@[simp] theorem takeFault_st (s : State) (f : Fault) : (takeFault f s).st = s.st := rfl
@[simp] theorem takeFault_key (s : State) (f : Fault) : (takeFault f s).key = s.key := rfl
@[simp] theorem takeFault_screen (s : State) (f : Fault) : (takeFault f s).screen = s.screen := rfl
@[simp] theorem takeFault_mem (s : State) (f : Fault) : (takeFault f s).mem = s.mem := rfl
@[simp] theorem takeFault_status (s : State) (f : Fault) : (takeFault f s).status = .halted f := rfl
@[simp] theorem takeFault_draws (s : State) (f : Fault) : (takeFault f s).draws = s.draws := rfl
@[simp] theorem takeFault_getV (s : State) (f : Fault) (y : Nibble) : (takeFault f s).getV y = s.getV y := rfl
@[simp] theorem takeFault_getStack (s : State) (f : Fault) (k : Fin 16) : (takeFault f s).getStack k = s.getStack k := rfl
@[simp] theorem takeFault_getKey (s : State) (f : Fault) (k : Nibble) : (takeFault f s).getKey k = s.getKey k := rfl

/-! ### `setFlag` -/

@[simp] theorem setFlag_v (s : State) (b : Byte) : (setFlag s b).v = s.v.set vf.toNat b vf.isLt := rfl
@[simp] theorem setFlag_i (s : State) (b : Byte) : (setFlag s b).i = s.i := rfl
@[simp] theorem setFlag_pc (s : State) (b : Byte) : (setFlag s b).pc = s.pc := rfl
@[simp] theorem setFlag_sp (s : State) (b : Byte) : (setFlag s b).sp = s.sp := rfl
@[simp] theorem setFlag_stack (s : State) (b : Byte) : (setFlag s b).stack = s.stack := rfl
@[simp] theorem setFlag_dt (s : State) (b : Byte) : (setFlag s b).dt = s.dt := rfl
@[simp] theorem setFlag_st (s : State) (b : Byte) : (setFlag s b).st = s.st := rfl
@[simp] theorem setFlag_key (s : State) (b : Byte) : (setFlag s b).key = s.key := rfl
@[simp] theorem setFlag_screen (s : State) (b : Byte) : (setFlag s b).screen = s.screen := rfl
@[simp] theorem setFlag_mem (s : State) (b : Byte) : (setFlag s b).mem = s.mem := rfl
@[simp] theorem setFlag_status (s : State) (b : Byte) : (setFlag s b).status = s.status := rfl
@[simp] theorem setFlag_draws (s : State) (b : Byte) : (setFlag s b).draws = s.draws := rfl
@[simp] theorem setFlag_getStack (s : State) (b : Byte) (k : Fin 16) : (setFlag s b).getStack k = s.getStack k := rfl
@[simp] theorem setFlag_getKey (s : State) (b : Byte) (k : Nibble) : (setFlag s b).getKey k = s.getKey k := rfl

/-! ### `drawByte` -/

@[simp] theorem drawByte_v (s : State) : (drawByte s).2.v = s.v := rfl
@[simp] theorem drawByte_i (s : State) : (drawByte s).2.i = s.i := rfl
@[simp] theorem drawByte_pc (s : State) : (drawByte s).2.pc = s.pc := rfl
@[simp] theorem drawByte_sp (s : State) : (drawByte s).2.sp = s.sp := rfl
@[simp] theorem drawByte_stack (s : State) : (drawByte s).2.stack = s.stack := rfl
@[simp] theorem drawByte_dt (s : State) : (drawByte s).2.dt = s.dt := rfl
@[simp] theorem drawByte_st (s : State) : (drawByte s).2.st = s.st := rfl
@[simp] theorem drawByte_key (s : State) : (drawByte s).2.key = s.key := rfl
@[simp] theorem drawByte_screen (s : State) : (drawByte s).2.screen = s.screen := rfl
@[simp] theorem drawByte_mem (s : State) : (drawByte s).2.mem = s.mem := rfl
@[simp] theorem drawByte_status (s : State) : (drawByte s).2.status = s.status := rfl
@[simp] theorem drawByte_draws (s : State) : (drawByte s).2.draws = s.draws + 1 := rfl
@[simp] theorem drawByte_getV (s : State) (y : Nibble) : (drawByte s).2.getV y = s.getV y := rfl
@[simp] theorem drawByte_getStack (s : State) (k : Fin 16) : (drawByte s).2.getStack k = s.getStack k := rfl
@[simp] theorem drawByte_getKey (s : State) (k : Nibble) : (drawByte s).2.getKey k = s.getKey k := rfl

/-! ### Reads after writes -/

/-- A register reads back the last value written to it, and the others keep theirs (R12). -/
theorem getV_setV (s : State) (x y : Nibble) (b : Byte) :
    (s.setV x b).getV y = if y = x then b else s.getV y := by
  have h : x.toNat = y.toNat ↔ y = x :=
    ⟨fun h => (BitVec.eq_of_toNat_eq h).symm, fun h => by rw [h]⟩
  simp [State.getV, State.setV, Vector.getElem_set, h]

@[simp] theorem getV_setV_self (s : State) (x : Nibble) (b : Byte) : (s.setV x b).getV x = b := by
  simp [getV_setV]

theorem getV_setV_ne (s : State) {x y : Nibble} (b : Byte) (h : y ≠ x) :
    (s.setV x b).getV y = s.getV y := by
  simp [getV_setV, h]

/-- A key flag reads back the last value the host set (R19, R109). -/
theorem getKey_setKeyFlag (s : State) (k j : Nibble) (b : Bool) :
    (s.setKeyFlag k b).getKey j = if j = k then b else s.getKey j := by
  have h : k.toNat = j.toNat ↔ j = k :=
    ⟨fun h => (BitVec.eq_of_toNat_eq h).symm, fun h => by rw [h]⟩
  simp [State.getKey, State.setKeyFlag, Vector.getElem_set, h]

theorem getV_setFlag (s : State) (y : Nibble) (b : Byte) :
    (setFlag s b).getV y = if y = vf then b else s.getV y := getV_setV s vf y b

/-- A skip moves PC and nothing else (R59). -/
theorem skipIf_eq (c : Bool) (s : State) :
    skipIf c s = s.setPc (if c then s.pc + 2#16 else s.pc) := by
  cases c <;> rfl

/-- The flag is the final value of VF, whatever the destination (R57). -/
theorem getV_setResultAndFlag (s : State) (x y : Nibble) (r f : Byte) :
    (setResultAndFlag s x r f).getV y = if y = vf then f else if y = x then r else s.getV y := by
  simp [setResultAndFlag, getV_setFlag, getV_setV]

@[simp] theorem setResultAndFlag_i (s : State) (x : Nibble) (r g : Byte) :
    (setResultAndFlag s x r g).i = s.i := rfl
@[simp] theorem setResultAndFlag_pc (s : State) (x : Nibble) (r g : Byte) :
    (setResultAndFlag s x r g).pc = s.pc := rfl
@[simp] theorem setResultAndFlag_sp (s : State) (x : Nibble) (r g : Byte) :
    (setResultAndFlag s x r g).sp = s.sp := rfl
@[simp] theorem setResultAndFlag_stack (s : State) (x : Nibble) (r g : Byte) :
    (setResultAndFlag s x r g).stack = s.stack := rfl
@[simp] theorem setResultAndFlag_dt (s : State) (x : Nibble) (r g : Byte) :
    (setResultAndFlag s x r g).dt = s.dt := rfl
@[simp] theorem setResultAndFlag_st (s : State) (x : Nibble) (r g : Byte) :
    (setResultAndFlag s x r g).st = s.st := rfl
@[simp] theorem setResultAndFlag_key (s : State) (x : Nibble) (r g : Byte) :
    (setResultAndFlag s x r g).key = s.key := rfl
@[simp] theorem setResultAndFlag_screen (s : State) (x : Nibble) (r g : Byte) :
    (setResultAndFlag s x r g).screen = s.screen := rfl
@[simp] theorem setResultAndFlag_mem (s : State) (x : Nibble) (r g : Byte) :
    (setResultAndFlag s x r g).mem = s.mem := rfl
@[simp] theorem setResultAndFlag_status (s : State) (x : Nibble) (r g : Byte) :
    (setResultAndFlag s x r g).status = s.status := rfl
@[simp] theorem setResultAndFlag_draws (s : State) (x : Nibble) (r g : Byte) :
    (setResultAndFlag s x r g).draws = s.draws := rfl
@[simp] theorem setResultAndFlag_getStack (s : State) (x : Nibble) (r g : Byte) (k : Fin 16) :
    (setResultAndFlag s x r g).getStack k = s.getStack k := rfl
@[simp] theorem setResultAndFlag_getKey (s : State) (x : Nibble) (r g : Byte) (k : Nibble) :
    (setResultAndFlag s x r g).getKey k = s.getKey k := rfl

/-! ### Memory and framebuffer replaced -/

@[simp] theorem withMem_getV (s : State) (m : Memory) (x : Nibble) :
    State.getV { s with mem := m } x = s.getV x := rfl
@[simp] theorem withMem_getStack (s : State) (m : Memory) (k : Fin 16) :
    State.getStack { s with mem := m } k = s.getStack k := rfl
@[simp] theorem withMem_getKey (s : State) (m : Memory) (k : Nibble) :
    State.getKey { s with mem := m } k = s.getKey k := rfl
@[simp] theorem withScreen_getV (s : State) (scr : Screen) (x : Nibble) :
    State.getV { s with screen := scr } x = s.getV x := rfl
@[simp] theorem withScreen_getStack (s : State) (scr : Screen) (k : Fin 16) :
    State.getStack { s with screen := scr } k = s.getStack k := rfl
@[simp] theorem withScreen_getKey (s : State) (scr : Screen) (k : Nibble) :
    State.getKey { s with screen := scr } k = s.getKey k := rfl

end Sys2Proof.Machine
end

