-- ==== Sys2Proof/Laws/Ops.lean ====
section
/-! SUPPORT. One lemma per shared operation that says everything it can do, cited instead of
unfolding it: the cycle, the fetch, multi-byte accesses, register runs, the call stack, the key scan. -/

namespace Sys2Proof.Machine

/-! ### The cycle -/

/-- A cycle completes with its body's state, or takes the fault the body raised on the state before
it (R55, R102). -/
theorem runCycle_cases {s t : State} {body : State → Except Fault State}
    (h : runCycle s body = .next t) :
    body (fetched s) = .ok t ∨ ∃ f, body (fetched s) = .error f ∧ t = takeFault f s := by
  simp only [runCycle] at h
  split at h
  · exact .inl (by simp_all)
  · exact .inr ⟨_, by assumption, by simp_all⟩

@[simp] theorem runCycle_ok {s t : State} {body : State → Except Fault State}
    (h : body (fetched s) = .ok t) : runCycle s body = .next t := by
  simp [runCycle, h]

@[simp] theorem runCycle_error {s : State} {f : Fault} {body : State → Except Fault State}
    (h : body (fetched s) = .error f) : runCycle s body = .next (takeFault f s) := by
  simp [runCycle, h]

/-- A cycle always answers a next state. -/
theorem runCycle_next (s : State) (body : State → Except Fault State) :
    ∃ t, runCycle s body = .next t := by
  simp only [runCycle]; split <;> exact ⟨_, rfl⟩

/-! ### The fetch -/

/-- A fetch where both bytes exist (R31, R51). -/
theorem fetch_of_le {s : State} (h : s.pc.toNat ≤ 0xFFE) :
    fetch s = .ok (opcodeOfBytes (s.mem.read s.pc.toNat) (s.mem.read (s.pc.toNat + 1))) := by
  simp [fetch, memRead_of_lt (show s.pc.toNat < 4096 by omega),
    memRead_of_lt (show s.pc.toNat + 1 < 4096 by omega)]

/-- A fetch at or above 0xFFF reports the first out-of-range address (R51). -/
theorem fetch_of_gt {s : State} (h : 0xFFF ≤ s.pc.toNat) :
    fetch s = .error (.memoryOutOfBounds (firstOutside s.pc.toNat)) := by
  by_cases h' : 4096 ≤ s.pc.toNat
  · simp [fetch, memRead_of_ge h', firstOutside, h']
  · have hp : s.pc.toNat = 0xFFF := by omega
    simp [fetch, hp, memRead_of_lt (show 4095 < 4096 by decide), memRead_of_ge (Nat.le_refl 4096),
      firstOutside]

/-- A fetch succeeds exactly where both bytes exist. -/
theorem fetch_eq_ok {s : State} {op : Word} :
    fetch s = .ok op ↔ s.pc.toNat ≤ 0xFFE ∧
      op = opcodeOfBytes (s.mem.read s.pc.toNat) (s.mem.read (s.pc.toNat + 1)) := by
  by_cases h : s.pc.toNat ≤ 0xFFE
  · simp [fetch_of_le h, h, eq_comm]
  · simp [fetch_of_gt (show 0xFFF ≤ s.pc.toNat by omega), h]

/-- A fault of the fetch is an address that does not exist. -/
theorem fetch_error {s : State} {f : Fault} (h : fetch s = .error f) :
    0xFFF ≤ s.pc.toNat ∧ f = .memoryOutOfBounds (firstOutside s.pc.toNat) := by
  by_cases hp : s.pc.toNat ≤ 0xFFE
  · simp [fetch_of_le hp] at h
  · have hp : 0xFFF ≤ s.pc.toNat := by omega
    rw [fetch_of_gt hp] at h
    exact ⟨hp, by simpa using h.symm⟩

theorem le_firstOutside (a : Nat) : 4096 ≤ firstOutside a := by
  simp only [firstOutside]; split <;> omega

/-! ### Multi-byte accesses (R33, R101) -/

/-- Reading `n` bytes: all of them, or the first address that does not exist. -/
theorem readBytes_eq (s : State) (a n : Nat) :
    readBytes s a n =
      if n = 0 ∨ a + n ≤ 4096 then .ok ((List.range n).map fun k => s.mem.read (a + k))
      else .error (.memoryOutOfBounds (firstOutside a)) := by
  induction n generalizing a with
  | zero => simp [readBytes]
  | succ n ih =>
    rw [readBytes]
    by_cases ha : a < 4096
    · rw [memRead_of_lt ha]
      simp only [ih (a + 1)]
      by_cases hn : n = 0 ∨ a + 1 + n ≤ 4096
      · rw [if_pos hn, if_pos (by omega)]
        simp [List.range_succ_eq_map, Function.comp_def, Nat.add_assoc, Nat.add_comm 1]
      · rw [if_neg hn, if_neg (by omega)]
        simp only [firstOutside]
        by_cases h' : 4096 ≤ a + 1
        · rw [if_pos h', if_neg (by omega), show a + 1 = 4096 by omega]
        · rw [if_neg h', if_neg (by omega)]
    · rw [memRead_of_ge (by omega), if_neg (by omega)]
      simp [firstOutside, Nat.le_of_not_lt ha]

/-- Writing bytes: all of them, or the first address that does not exist. -/
theorem writeBytes_eq (s : State) (a : Nat) (bs : List Byte) :
    writeBytes s a bs =
      if bs = [] ∨ a + bs.length ≤ 4096 then .ok { s with mem := copyBytes s.mem a bs }
      else .error (.memoryOutOfBounds (firstOutside a)) := by
  induction bs generalizing s a with
  | nil => simp [writeBytes, copyBytes]
  | cons b bs ih =>
    rw [writeBytes]
    by_cases ha : a < 4096
    · rw [memWrite_of_lt ha]
      simp only [ih]
      by_cases hn : bs = [] ∨ a + 1 + bs.length ≤ 4096
      · rw [if_pos hn, if_pos]
        · rfl
        · rcases hn with rfl | hn
          · simp; omega
          · simp; omega
      · have hb : bs ≠ [] := fun h => hn (.inl h)
        have hl : 0 < bs.length := List.length_pos_iff.mpr hb
        rw [if_neg hn, if_neg (by simp; omega)]
        simp only [firstOutside]
        by_cases h' : 4096 ≤ a + 1
        · rw [if_pos h', if_neg (by omega), show a + 1 = 4096 by omega]
        · rw [if_neg h', if_neg (by omega)]
    · rw [memWrite_of_ge (by omega), if_neg (by simp; omega)]
      simp [firstOutside, Nat.le_of_not_lt ha]

@[simp] theorem bcdDigits_length (b : Byte) : (bcdDigits b).length = 3 := rfl

@[simp] theorem regsUpTo_length (s : State) (x : Nibble) : (regsUpTo s x).length = x.toNat + 1 := by
  simp [regsUpTo]

/-- The byte FX55 stores at offset `k` is register `k` (R87). -/
theorem regsUpTo_getD (s : State) (x : Nibble) {k : Nat} (h : k ≤ x.toNat) :
    (regsUpTo s x).getD k 0#8 = s.getV (BitVec.ofNat 4 k) := by
  simp [regsUpTo, List.getD, Nat.lt_succ_of_le h]

/-! ### Loading registers (R88) -/

/-- Registers loaded from `V[k]` on; the others keep their values. -/
theorem getV_setRegs (bs : List Byte) (s : State) (k : Nat) (hk : k + bs.length ≤ 16) (y : Nibble) :
    (setRegs s k bs).getV y =
      if k ≤ y.toNat ∧ y.toNat < k + bs.length then bs.getD (y.toNat - k) 0#8 else s.getV y := by
  induction bs generalizing s k with
  | nil => rw [if_neg (by simp only [List.length_nil]; omega)]; rfl
  | cons b bs ih =>
    simp only [List.length_cons] at hk
    have hy : y = BitVec.ofNat 4 k ↔ y.toNat = k := by
      rw [← BitVec.toNat_inj]
      simp [Nat.mod_eq_of_lt (show k < 16 by omega)]
    rw [setRegs, ih _ _ (by omega), getV_setV]
    simp only [hy]
    by_cases h0 : y.toNat = k
    · rw [if_neg (by omega), if_pos h0, if_pos ⟨by omega, by simp; omega⟩, h0]
      simp
    · by_cases hin : k ≤ y.toNat ∧ y.toNat < k + (b :: bs).length
      · obtain ⟨h1, h2⟩ := hin
        simp only [List.length_cons] at h2
        rw [if_pos (by omega), if_pos ⟨h1, by simp only [List.length_cons]; omega⟩]
        obtain ⟨j, hj⟩ : ∃ j, y.toNat - k = j + 1 := ⟨y.toNat - k - 1, by omega⟩
        rw [hj, show y.toNat - (k + 1) = j by omega]
        simp
      · simp only [List.length_cons] at hin
        rw [if_neg (by omega), if_neg h0, if_neg (by simp only [List.length_cons]; omega)]

/-- Loading registers changes nothing but the register file. -/
theorem setRegs_frame (bs : List Byte) (s : State) (k : Nat) :
    setRegs s k bs = { s with v := (setRegs s k bs).v } := by
  induction bs generalizing s k with
  | nil => rfl
  | cons b bs ih => rw [setRegs, ih]; rfl

/-! ### The call stack (R16) -/

/-- What a push answers (R63). -/
theorem pushReturn_of_lt {s : State} {ret : Word} (h : s.sp.val < 16) :
    pushReturn s ret =
      .ok { s with stack := s.stack.set s.sp.val ret h, sp := ⟨s.sp.val + 1, by omega⟩ } := by
  simp [pushReturn, h]

theorem pushReturn_full {s : State} {ret : Word} (h : s.sp.val = 16) :
    pushReturn s ret = .error .stackOverflow := by
  simp [pushReturn, h]

/-- What a pop answers (R61). -/
theorem popReturn_of_pos {s : State} (h : 0 < s.sp.val) :
    popReturn s =
      .ok (s.getStack ⟨s.sp.val - 1, by omega⟩, { s with sp := ⟨s.sp.val - 1, by omega⟩ }) := by
  simp [popReturn, h, State.getStack]

theorem popReturn_empty {s : State} (h : s.sp.val = 0) : popReturn s = .error .stackUnderflow := by
  simp [popReturn, h]

/-! ### Keys (R93, R98) -/

theorem keyOperand_of_le {b : Byte} (h : b.toNat ≤ 15) : keyOperand b = .ok (b.setWidth 4) := by
  simp [keyOperand]; omega

theorem keyOperand_of_gt {b : Byte} (h : 15 < b.toNat) :
    keyOperand b = .error (.keyIndexOutOfRange b) := by
  simp [keyOperand, h]

/-- The scan finds no key exactly when none is pressed. -/
theorem leastPressed_eq_none {s : State} : leastPressed s = none ↔ ∀ k, s.getKey k = false := by
  simp only [leastPressed, List.find?_eq_none, List.mem_map, List.mem_range]
  constructor
  · intro h k
    simpa using h k ⟨k.toNat, k.isLt, by simp⟩
  · rintro h k -
    simp [h k]

/-- The scan finds the least pressed key (R98). -/
theorem leastPressed_eq_some {s : State} {k : Nibble} (h : leastPressed s = some k) :
    s.getKey k = true ∧ ∀ j, j.toNat < k.toNat → s.getKey j = false := by
  simp only [leastPressed, List.find?_eq_some_iff_getElem] at h
  obtain ⟨hk, n, hn, he, hlt⟩ := h
  simp only [List.length_map, List.length_range] at hn
  simp only [List.getElem_map, List.getElem_range] at he hlt
  refine ⟨hk, fun j hj => ?_⟩
  have : k.toNat = n := by rw [← he]; simp [Nat.mod_eq_of_lt hn]
  have := hlt j.toNat (by omega)
  simpa using this

end Sys2Proof.Machine
end

