-- ==== Sys2Proof/Laws/Display.lean ====
section
/-! SUPPORT. What drawing a sprite does to every pixel and to the collision flag
(spec/44_display.md R89–R92): each pixel a set bit reaches is inverted once, the others stay. -/

namespace Sys2Proof.Machine

/-- An inverted pixel, and every other pixel as before. -/
theorem pixel_flip (scr : Screen) (x y px py : Nat) :
    (scr.flip x y).pixel px py =
      if px % 64 = x % 64 ∧ py % 32 = y % 32 then !scr.pixel x y else scr.pixel px py := by
  by_cases hy : y % 32 = py % 32
  · by_cases hx : x % 64 = px % 64
    · simp [Screen.flip, Screen.pixel, hx, hy]
    · simp [Screen.flip, Screen.pixel, hx, hy, Ne.symm hx]
  · simp [Screen.flip, Screen.pixel, hy, Ne.symm hy]

/-- A pixel depends on its coordinates modulo 64 and 32 only (R89). -/
theorem pixel_mod (scr : Screen) (x y : Nat) : scr.pixel (x % 64) (y % 32) = scr.pixel x y := by
  simp [Screen.pixel]

@[simp] theorem pixel_blank (x y : Nat) : Screen.blank.pixel x y = false := by
  simp [Screen.blank, Screen.pixel]

/-- The first `m` columns of a row drawn. -/
def drawCols (d : Drawing) (x y : Nat) (row : Byte) (m : Nat) : Drawing :=
  (List.range m).foldl (fun d c => drawBit d (x + c) y (row.getLsbD (7 - c))) d

theorem drawCols_succ (d : Drawing) (x y : Nat) (row : Byte) (m : Nat) :
    drawCols d x y row (m + 1) =
      drawBit (drawCols d x y row m) (x + m) y (row.getLsbD (7 - m)) := by
  simp [drawCols, List.range_succ]

/-- A set bit among the first `m` columns of a row at column `x`, row `y` reaches the pixel. -/
def ColHits (x y : Nat) (row : Byte) (m px py : Nat) : Prop :=
  ∃ c, c < m ∧ row.getLsbD (7 - c) = true ∧ (x + c) % 64 = px % 64 ∧ y % 32 = py % 32

theorem colHits_succ {x y : Nat} {row : Byte} {m px py : Nat} :
    ColHits x y row (m + 1) px py ↔
      ColHits x y row m px py ∨
        (row.getLsbD (7 - m) = true ∧ (x + m) % 64 = px % 64 ∧ y % 32 = py % 32) := by
  constructor
  · rintro ⟨c, hc, h⟩
    rcases Nat.lt_succ_iff_lt_or_eq.mp hc with hc | rfl
    · exact .inl ⟨c, hc, h⟩
    · exact .inr h
  · rintro (⟨c, hc, h⟩ | h)
    · exact ⟨c, by omega, h⟩
    · exact ⟨m, by omega, h⟩

/-- No earlier column of a row reaches the pixel of column `m`. -/
theorem not_colHits_self {x y : Nat} {row : Byte} {m : Nat} (hm : m < 64) :
    ¬ ColHits x y row m (x + m) y := by
  rintro ⟨c, hc, -, h, -⟩
  omega

/-- What the first `m` columns of a row do to every pixel. -/
theorem drawCols_pixel (d : Drawing) (x y : Nat) (row : Byte) {m : Nat} (hm : m ≤ 8) (px py : Nat) :
    (ColHits x y row m px py → (drawCols d x y row m).1.pixel px py = !d.1.pixel px py) ∧
      (¬ ColHits x y row m px py → (drawCols d x y row m).1.pixel px py = d.1.pixel px py) := by
  induction m generalizing px py with
  | zero => exact ⟨fun ⟨c, hc, _⟩ => absurd hc (Nat.not_lt_zero c), fun _ => rfl⟩
  | succ m ih =>
    have ih := ih (by omega)
    rw [drawCols_succ, colHits_succ, drawBit]
    by_cases hb : row.getLsbD (7 - m) = true
    · simp only [hb, if_true, true_and, pixel_flip]
      by_cases hp : px % 64 = (x + m) % 64 ∧ py % 32 = y % 32
      · have hno : ¬ ColHits x y row m px py := by
          rintro ⟨c, hc, -, h, -⟩; omega
        have heq : d.1.pixel (x + m) y = d.1.pixel px py := by
          rw [← pixel_mod _ (x + m) y, ← hp.1, ← hp.2, pixel_mod]
        rw [if_pos hp, (ih (x + m) y).2 (not_colHits_self (by omega)), heq]
        exact ⟨fun _ => rfl, fun h => absurd (.inr ⟨hp.1.symm, hp.2.symm⟩) h⟩
      · rw [if_neg hp]
        refine ⟨fun h => (ih px py).1 (h.resolve_right fun h => hp ⟨h.1.symm, h.2.symm⟩),
          fun h => (ih px py).2 fun h' => h (.inl h')⟩
    · simp only [hb, if_false, false_and, or_false, Bool.false_eq_true]
      exact ih px py

/-- What the first `m` columns of a row do to the collision flag. -/
theorem drawCols_erased (d : Drawing) (x y : Nat) (row : Byte) {m : Nat} (hm : m ≤ 8) :
    (drawCols d x y row m).2 = true ↔
      d.2 = true ∨ ∃ px py, ColHits x y row m px py ∧ d.1.pixel px py = true := by
  induction m with
  | zero =>
    refine ⟨fun h => .inl h, ?_⟩
    rintro (h | ⟨px, py, ⟨c, hc, _⟩, _⟩)
    · exact h
    · exact absurd hc (Nat.not_lt_zero c)
  | succ m ih =>
    have ih := ih (by omega)
    rw [drawCols_succ, drawBit]
    by_cases hb : row.getLsbD (7 - m) = true
    · simp only [hb, if_true, Bool.or_eq_true, ih,
        (drawCols_pixel d x y row (show m ≤ 8 by omega) (x + m) y).2 (not_colHits_self (by omega))]
      constructor
      · rintro ((h | ⟨px, py, h, hl⟩) | h)
        · exact .inl h
        · exact .inr ⟨px, py, colHits_succ.mpr (.inl h), hl⟩
        · exact .inr ⟨x + m, y, colHits_succ.mpr (.inr ⟨hb, rfl, rfl⟩), h⟩
      · rintro (h | ⟨px, py, h, hl⟩)
        · exact .inl (.inl h)
        · rcases colHits_succ.mp h with h | ⟨-, h1, h2⟩
          · exact .inl (.inr ⟨px, py, h, hl⟩)
          · refine .inr ?_
            rw [← pixel_mod, h1, h2, pixel_mod]; exact hl
    · simp only [hb, if_false, Bool.false_eq_true, ih]
      refine or_congr_right ⟨?_, ?_⟩
      · rintro ⟨px, py, h, hl⟩
        exact ⟨px, py, colHits_succ.mpr (.inl h), hl⟩
      · rintro ⟨px, py, h, hl⟩
        exact ⟨px, py, (colHits_succ.mp h).resolve_right fun h => hb h.1, hl⟩

theorem drawRow_eq (d : Drawing) (x y : Nat) (row : Byte) :
    drawRow d x y row = drawCols d x y row 8 := rfl

/-- A set bit of a sprite's rows at column `x`, row `y` reaches the pixel. -/
def RowsHit (x y : Nat) (rows : List Byte) (px py : Nat) : Prop :=
  ∃ r c, r < rows.length ∧ c < 8 ∧ (rows.getD r 0#8).getLsbD (7 - c) = true ∧
    (x + c) % 64 = px % 64 ∧ (y + r) % 32 = py % 32

theorem rowsHit_cons {x y : Nat} {row : Byte} {rows : List Byte} {px py : Nat} :
    RowsHit x y (row :: rows) px py ↔
      ColHits x y row 8 px py ∨ RowsHit x (y + 1) rows px py := by
  constructor
  · rintro ⟨r, c, hr, hc, hb, hx, hy⟩
    cases r with
    | zero => exact .inl ⟨c, hc, by simpa using hb, hx, by simpa using hy⟩
    | succ r =>
      exact .inr ⟨r, c, by simpa using hr, hc, by simpa using hb, hx, by rw [← hy]; congr 1; omega⟩
  · rintro (⟨c, hc, hb, hx, hy⟩ | ⟨r, c, hr, hc, hb, hx, hy⟩)
    · exact ⟨0, c, by simp, hc, by simpa using hb, hx, by simpa using hy⟩
    · exact ⟨r + 1, c, by simpa using hr, hc, by simpa using hb, hx, by rw [← hy]; congr 1; omega⟩

/-- A row and the rows below it reach no common pixel of a sprite at most 32 rows high (R92). -/
theorem not_rowsHit_of_colHits {x y : Nat} {row : Byte} {rows : List Byte} {px py : Nat}
    (hlen : rows.length < 32) (h : ColHits x y row 8 px py) : ¬ RowsHit x (y + 1) rows px py := by
  obtain ⟨c, -, -, -, h2⟩ := h
  rintro ⟨r, c', hr, -, -, -, h'⟩
  omega

/-- What drawing a sprite does to every pixel. -/
theorem drawRows_pixel (rows : List Byte) (d : Drawing) (x y : Nat) (hlen : rows.length ≤ 32)
    (px py : Nat) :
    (RowsHit x y rows px py → (drawRows d x y rows).1.pixel px py = !d.1.pixel px py) ∧
      (¬ RowsHit x y rows px py → (drawRows d x y rows).1.pixel px py = d.1.pixel px py) := by
  induction rows generalizing d y with
  | nil => exact ⟨fun ⟨r, _, hr, _⟩ => absurd hr (Nat.not_lt_zero r), fun _ => rfl⟩
  | cons row rows ih =>
    simp only [List.length_cons] at hlen
    have ih := ih (drawRow d x y row) (y + 1) (by omega)
    have hrow := drawCols_pixel d x y row (Nat.le_refl 8) px py
    rw [drawRows, rowsHit_cons]
    rw [drawRow_eq] at ih ⊢
    refine ⟨?_, fun h => ?_⟩
    · rintro (h | h)
      · rw [ih.2 (not_rowsHit_of_colHits (by omega) h), hrow.1 h]
      · rw [ih.1 h, hrow.2 fun h' => not_rowsHit_of_colHits (by omega) h' h]
    · rw [ih.2 fun h' => h (.inr h'), hrow.2 fun h' => h (.inl h')]

/-- What drawing a sprite does to the collision flag. -/
theorem drawRows_erased (rows : List Byte) (d : Drawing) (x y : Nat) (hlen : rows.length ≤ 32) :
    (drawRows d x y rows).2 = true ↔
      d.2 = true ∨ ∃ px py, RowsHit x y rows px py ∧ d.1.pixel px py = true := by
  induction rows generalizing d y with
  | nil =>
    refine ⟨fun h => .inl h, ?_⟩
    rintro (h | ⟨px, py, ⟨r, c, hr, _⟩, _⟩)
    · exact h
    · exact absurd hr (Nat.not_lt_zero r)
  | cons row rows ih =>
    simp only [List.length_cons] at hlen
    rw [drawRows, ih _ _ (by omega), drawRow_eq, drawCols_erased d x y row (Nat.le_refl 8), or_assoc]
    refine or_congr_right ⟨?_, ?_⟩
    · rintro (⟨px, py, h, hl⟩ | ⟨px, py, h, hl⟩)
      · exact ⟨px, py, rowsHit_cons.mpr (.inl h), hl⟩
      · refine ⟨px, py, rowsHit_cons.mpr (.inr h), ?_⟩
        rwa [(drawCols_pixel d x y row (Nat.le_refl 8) px py).2
          fun h' => not_rowsHit_of_colHits (by omega) h' h] at hl
    · rintro ⟨px, py, h, hl⟩
      rcases rowsHit_cons.mp h with h | h
      · exact .inl ⟨px, py, h, hl⟩
      · refine .inr ⟨px, py, h, ?_⟩
        rwa [(drawCols_pixel d x y row (Nat.le_refl 8) px py).2
          fun h' => not_rowsHit_of_colHits (by omega) h' h]

end Sys2Proof.Machine
end

