-- ==== Sys2Proof/Laws/Events.lean ====
section
/-! SUPPORT. What the operations of the host events answer: a Load by its length (R113), and one timer's
countdown (R106). Cited instead of unfolding an event. -/

namespace Sys2Proof.Machine

/-- A Load that fits writes memory alone, whatever the status is. -/
theorem load_of_le {bytes : List Byte} (s : State) (h : bytes.length ≤ 3584) :
    load bytes s = ({ s with mem := copyBytes s.mem 0x200 bytes }, .ok) :=
  if_neg (Nat.not_lt.mpr h)

/-- A Load too long writes nothing; the status is the running core's halt, or the earlier fault. -/
theorem load_of_gt {bytes : List Byte} (s : State) (h : 3584 < bytes.length) :
    load bytes s =
      ((match s.status with
        | .running => takeFault (.romTooLarge bytes.length) s
        | .halted _ => s), .fault (.romTooLarge bytes.length)) := by
  rw [load, if_pos h]
  cases s.status <;> rfl

/-- A timer loses 1 and never goes below 0. -/
theorem toNat_countDown (b : Byte) : (countDown b).toNat = b.toNat - 1 := by
  unfold countDown
  split
  · rename_i h; subst h; rfl
  · rename_i h
    have : b.toNat ≠ 0 := fun h' => h (BitVec.eq_of_toNat_eq h')
    have := b.isLt
    rw [BitVec.toNat_sub]
    simp only [BitVec.toNat_ofNat]
    omega

end Sys2Proof.Machine
end

