-- ==== Sys2Proof/Laws/Exec.lean ====
section
/-! SUPPORT. Each instruction's cycle in closed form: the next state it answers, in the named
operations, with its fault where it has one. Cited instead of unfolding a meaning. -/

namespace Sys2Proof.Machine

/-! ### Control flow (spec/41_flow.md) -/

theorem exec_nop (s : State) : exec .nop s = .next (fetched s) := rfl

theorem exec_jp (nnn : Imm12) (s : State) :
    exec (.jp nnn) s = .next ((fetched s).setPc (addrOf nnn)) := rfl

theorem exec_jpV0 (nnn : Imm12) (s : State) :
    exec (.jpV0 nnn) s = .next ((fetched s).setPc (addrOf nnn + wideOf (s.getV 0x0#4))) := rfl

theorem exec_seByte (x : Nibble) (nn : Byte) (s : State) :
    exec (.seByte x nn) s = .next (skipIf (s.getV x == nn) (fetched s)) := rfl

theorem exec_sneByte (x : Nibble) (nn : Byte) (s : State) :
    exec (.sneByte x nn) s = .next (skipIf (s.getV x != nn) (fetched s)) := rfl

theorem exec_seReg (x y : Nibble) (s : State) :
    exec (.seReg x y) s = .next (skipIf (s.getV x == s.getV y) (fetched s)) := rfl

theorem exec_sneReg (x y : Nibble) (s : State) :
    exec (.sneReg x y) s = .next (skipIf (s.getV x != s.getV y) (fetched s)) := rfl

theorem exec_ret_empty {s : State} (h : s.sp.val = 0) :
    exec .ret s = .next (takeFault .stackUnderflow s) := by
  simp only [exec, execRet, runCycle, popReturn_empty (s := fetched s) h]

theorem exec_ret_pos {s : State} (h : 0 < s.sp.val) :
    exec .ret s = .next
      { s with sp := ⟨s.sp.val - 1, by omega⟩, pc := s.getStack ⟨s.sp.val - 1, by omega⟩ } := by
  simp only [exec, execRet, runCycle, popReturn_of_pos (s := fetched s) h]; rfl

theorem exec_call_full {s : State} (nnn : Imm12) (h : s.sp.val = 16) :
    exec (.call nnn) s = .next (takeFault .stackOverflow s) := by
  simp only [exec, execCall, runCycle, pushReturn_full (s := fetched s) h]

theorem exec_call_lt {s : State} (nnn : Imm12) (h : s.sp.val < 16) :
    exec (.call nnn) s = .next
      { s with
        stack := s.stack.set s.sp.val (s.pc + 2#16) h
        sp := ⟨s.sp.val + 1, by omega⟩
        pc := addrOf nnn } := by
  simp only [exec, execCall, runCycle, pushReturn_of_lt (s := fetched s) h]; rfl

/-! ### ALU (spec/42_alu.md) -/

theorem exec_ldByte (x : Nibble) (nn : Byte) (s : State) :
    exec (.ldByte x nn) s = .next ((fetched s).setV x nn) := rfl

theorem exec_addByte (x : Nibble) (nn : Byte) (s : State) :
    exec (.addByte x nn) s = .next ((fetched s).setV x (s.getV x + nn)) := rfl

theorem exec_ldReg (x y : Nibble) (s : State) :
    exec (.ldReg x y) s = .next ((fetched s).setV x (s.getV y)) := rfl

theorem exec_orReg (x y : Nibble) (s : State) :
    exec (.orReg x y) s = .next ((fetched s).setV x (s.getV x ||| s.getV y)) := rfl

theorem exec_andReg (x y : Nibble) (s : State) :
    exec (.andReg x y) s = .next ((fetched s).setV x (s.getV x &&& s.getV y)) := rfl

theorem exec_xorReg (x y : Nibble) (s : State) :
    exec (.xorReg x y) s = .next ((fetched s).setV x (s.getV x ^^^ s.getV y)) := rfl

theorem exec_addReg (x y : Nibble) (s : State) :
    exec (.addReg x y) s = .next (setResultAndFlag (fetched s) x (s.getV x + s.getV y)
      (carryOf (s.getV x) (s.getV y))) := rfl

theorem exec_subReg (x y : Nibble) (s : State) :
    exec (.subReg x y) s = .next (setResultAndFlag (fetched s) x (s.getV x - s.getV y)
      (noBorrowOf (s.getV x) (s.getV y))) := rfl

theorem exec_shr (x y : Nibble) (s : State) :
    exec (.shr x y) s = .next (setResultAndFlag (fetched s) x (s.getV x >>> 1)
      (shrOut (s.getV x))) := rfl

theorem exec_subnReg (x y : Nibble) (s : State) :
    exec (.subnReg x y) s = .next (setResultAndFlag (fetched s) x (s.getV y - s.getV x)
      (noBorrowOf (s.getV y) (s.getV x))) := rfl

theorem exec_shl (x y : Nibble) (s : State) :
    exec (.shl x y) s = .next (setResultAndFlag (fetched s) x (s.getV x <<< 1)
      (shlOut (s.getV x))) := rfl

theorem exec_rnd (x : Nibble) (nn : Byte) (s : State) :
    exec (.rnd x nn) s =
      .next ((drawByte (fetched s)).2.setV x (Config.rand s.draws &&& nn)) := rfl

/-! ### Index register and memory moves (spec/43_index_memory.md) -/

theorem exec_ldI (nnn : Imm12) (s : State) :
    exec (.ldI nnn) s = .next ((fetched s).setI (addrOf nnn)) := rfl

theorem exec_ldFVx (x : Nibble) (s : State) :
    exec (.ldFVx x) s = .next ((fetched s).setI (glyphAddr (s.getV x))) := rfl

theorem exec_addIVx (x : Nibble) (s : State) :
    exec (.addIVx x) s =
      if s.i.toNat + (s.getV x).toNat > 0xFFFF then
        .next (takeFault (.indexOverflow (s.i.toNat + (s.getV x).toNat)) s)
      else .next ((fetched s).setI (BitVec.ofNat 16 (s.i.toNat + (s.getV x).toNat))) := by
  by_cases h : s.i.toNat + (s.getV x).toNat > 0xFFFF
  · simp only [exec, execAddIVx, runCycle, fetched_i, fetched_getV, h, if_true]
  · simp only [exec, execAddIVx, runCycle, fetched_i, fetched_getV, h, if_false]

/-- FX33's three accesses exist, or the first outside is reported (R86, R101). -/
theorem exec_ldBVx (x : Nibble) (s : State) :
    exec (.ldBVx x) s =
      if s.i.toNat + 3 ≤ 4096 then
        .next { fetched s with mem := copyBytes s.mem s.i.toNat (bcdDigits (s.getV x)) }
      else .next (takeFault (.memoryOutOfBounds (firstOutside s.i.toNat)) s) := by
  have hne : bcdDigits (s.getV x) ≠ [] := by simp [bcdDigits]
  simp only [exec, execLdBVx, runCycle, writeBytes_eq, fetched_getV, fetched_i, fetched_mem,
    indexAddr, hne, false_or, bcdDigits_length, Nat.add_zero]
  by_cases h : s.i.toNat + 3 ≤ 4096 <;> simp only [h, if_true, if_false]

/-- FX55's X + 1 accesses exist, or the first outside is reported (R87, R101). -/
theorem exec_storeRegs (x : Nibble) (s : State) :
    exec (.storeRegs x) s =
      if s.i.toNat + (x.toNat + 1) ≤ 4096 then
        .next { fetched s with mem := copyBytes s.mem s.i.toNat (regsUpTo s x) }
      else .next (takeFault (.memoryOutOfBounds (firstOutside s.i.toNat)) s) := by
  have hne : regsUpTo (fetched s) x ≠ [] := by
    intro h; simpa [h] using regsUpTo_length (fetched s) x
  simp only [exec, execStoreRegs, runCycle, writeBytes_eq, fetched_i, fetched_mem,
    indexAddr, hne, false_or, regsUpTo_length, Nat.add_zero]
  by_cases h : s.i.toNat + (x.toNat + 1) ≤ 4096 <;> simp only [h, if_true, if_false]
  rfl

/-- FX65's X + 1 accesses exist, or the first outside is reported (R88, R101). -/
theorem exec_loadRegs (x : Nibble) (s : State) :
    exec (.loadRegs x) s =
      if s.i.toNat + (x.toNat + 1) ≤ 4096 then
        .next (setRegs (fetched s) 0
          ((List.range (x.toNat + 1)).map fun k => s.mem.read (s.i.toNat + k)))
      else .next (takeFault (.memoryOutOfBounds (firstOutside s.i.toNat)) s) := by
  have hne : x.toNat + 1 ≠ 0 := Nat.succ_ne_zero _
  simp only [exec, execLoadRegs, runCycle, readBytes_eq, fetched_i, fetched_mem,
    indexAddr, hne, false_or, Nat.add_zero]
  by_cases h : s.i.toNat + (x.toNat + 1) ≤ 4096 <;> simp only [h, if_true, if_false]

/-! ### Framebuffer (spec/44_display.md) -/

theorem exec_cls (s : State) :
    exec .cls s = .next { fetched s with screen := Screen.blank } := rfl

/-- The rows of an `n`-row sprite at I (R90). -/
def spriteRows (s : State) (n : Nat) : List Byte :=
  (List.range n).map fun k => s.mem.read (s.i.toNat + k)

@[simp] theorem spriteRows_length (s : State) (n : Nat) : (spriteRows s n).length = n := by
  simp [spriteRows]

theorem spriteRows_getD (s : State) {n r : Nat} (h : r < n) :
    (spriteRows s n).getD r 0#8 = s.mem.read (s.i.toNat + r) := by
  simp [spriteRows, List.getD, h]

/-- DXYN's N accesses exist, or the first outside is reported (R92, R101). -/
theorem exec_drw (x y n : Nibble) (s : State) :
    exec (.drw x y n) s =
      if n.toNat = 0 ∨ s.i.toNat + n.toNat ≤ 4096 then
        .next (setFlag
          { fetched s with
            screen := (drawRows (s.screen, false) (s.getV x).toNat (s.getV y).toNat
              (spriteRows s n.toNat)).1 }
          (flagByte (drawRows (s.screen, false) (s.getV x).toNat (s.getV y).toNat
            (spriteRows s n.toNat)).2))
      else .next (takeFault (.memoryOutOfBounds (firstOutside s.i.toNat)) s) := by
  simp only [exec, execDrw, runCycle, readBytes_eq, fetched_i, fetched_mem, fetched_screen,
    fetched_getV, indexAddr, Nat.add_zero, spriteRows]
  by_cases h : n.toNat = 0 ∨ s.i.toNat + n.toNat ≤ 4096 <;> simp only [h, if_true, if_false]

/-! ### Keys and timers (spec/45_keys_timers.md) -/

theorem exec_skp_of_le {x : Nibble} {s : State} (h : (s.getV x).toNat ≤ 15) :
    exec (.skp x) s = .next (skipIf (s.getKey ((s.getV x).setWidth 4)) (fetched s)) := by
  simp only [exec, execSkp, runCycle, fetched_getV, keyOperand_of_le h, fetched_getKey]

theorem exec_sknp_of_le {x : Nibble} {s : State} (h : (s.getV x).toNat ≤ 15) :
    exec (.sknp x) s = .next (skipIf (!s.getKey ((s.getV x).setWidth 4)) (fetched s)) := by
  simp only [exec, execSknp, runCycle, fetched_getV, keyOperand_of_le h, fetched_getKey]

theorem exec_skp_of_gt {x : Nibble} {s : State} (h : 15 < (s.getV x).toNat) :
    exec (.skp x) s = .next (takeFault (.keyIndexOutOfRange (s.getV x)) s) := by
  simp only [exec, execSkp, runCycle, fetched_getV, keyOperand_of_gt h]

theorem exec_sknp_of_gt {x : Nibble} {s : State} (h : 15 < (s.getV x).toNat) :
    exec (.sknp x) s = .next (takeFault (.keyIndexOutOfRange (s.getV x)) s) := by
  simp only [exec, execSknp, runCycle, fetched_getV, keyOperand_of_gt h]

theorem exec_ldVxDT (x : Nibble) (s : State) :
    exec (.ldVxDT x) s = .next ((fetched s).setV x s.dt) := rfl

theorem leastPressed_fetched (s : State) : leastPressed (fetched s) = leastPressed s := rfl

theorem exec_ldVxK_some {x k : Nibble} {s : State} (h : leastPressed s = some k) :
    exec (.ldVxK x) s = .next ((fetched s).setV x (k.setWidth 8)) := by
  simp only [exec, execLdVxK, runCycle, leastPressed_fetched, h]

/-- A waiting FX0A leaves the whole state as it was (R98). -/
theorem exec_ldVxK_none {x : Nibble} {s : State} (h : leastPressed s = none) :
    exec (.ldVxK x) s = .next s := by
  have hp : s.pc + 2#16 - 2#16 = s.pc := BitVec.add_sub_cancel _ _
  simp only [exec, execLdVxK, runCycle, leastPressed_fetched, h]
  simp only [fetched, State.setPc, hp]

theorem exec_ldDTVx (x : Nibble) (s : State) :
    exec (.ldDTVx x) s = .next ((fetched s).setDt (s.getV x)) := rfl

theorem exec_ldSTVx (x : Nibble) (s : State) :
    exec (.ldSTVx x) s = .next ((fetched s).setSt (s.getV x)) := rfl

end Sys2Proof.Machine
end

