-- ==== Sys2Proof/Laws/PerInstr.lean ====
section
/-! SUPPORT. Per instruction, as syntax: its word carries the fixed bits of its row of
spec/opcode_table.json (spec/30_encoding.md R42). -/

namespace Sys2Proof

theorem formXYN_and (a b c d a' b' c' d' : Nibble) :
    formXYN a b c d &&& formXYN a' b' c' d' =
      formXYN (a &&& a') (b &&& b') (c &&& c') (d &&& d') := by
  simp only [formXYN]
  rw [BitVec.and_append, BitVec.and_append, BitVec.and_append]

theorem formXNN_and (a b a' b' : Nibble) (c c' : Byte) :
    formXNN a b c &&& formXNN a' b' c' = formXNN (a &&& a') (b &&& b') (c &&& c') := by
  simp only [formXNN]
  rw [BitVec.and_append, BitVec.and_append]

theorem formNNN_and (a a' : Nibble) (b b' : Imm12) :
    formNNN a b &&& formNNN a' b' = formNNN (a &&& a') (b &&& b') := by
  simp only [formNNN]
  rw [BitVec.and_append]

theorem maskNNN : 0xF000#16 = formNNN 0xF#4 0#12 := by decide
theorem maskXNN : 0xF000#16 = formXNN 0xF#4 0#4 0#8 := by decide
theorem maskX : 0xF0FF#16 = formXNN 0xF#4 0#4 0xFF#8 := by decide
theorem maskXYN : 0xF000#16 = formXYN 0xF#4 0#4 0#4 0#4 := by decide
theorem maskXY : 0xF00F#16 = formXYN 0xF#4 0#4 0#4 0xF#4 := by decide

/-- The word of `i` under its row's mask is its row's match value. -/
def Laws.OpcodeRow.Statement (i : Instr) : Prop := encode i &&& rowMask i = rowMatch i

theorem Laws.OpcodeRow.nop : Statement (.nop) := by
  rw [Statement]; decide

theorem Laws.OpcodeRow.cls : Statement (.cls) := by
  rw [Statement]; decide

theorem Laws.OpcodeRow.ret : Statement (.ret) := by
  rw [Statement]; decide

theorem Laws.OpcodeRow.jp (nnn : Imm12) : Statement (.jp nnn) := by
  rw [Statement, encode, rowMask, maskNNN, formNNN_and]
  simp only [BitVec.and_zero]
  rfl

theorem Laws.OpcodeRow.call (nnn : Imm12) : Statement (.call nnn) := by
  rw [Statement, encode, rowMask, maskNNN, formNNN_and]
  simp only [BitVec.and_zero]
  rfl

theorem Laws.OpcodeRow.seByte (x : Nibble) (nn : Byte) : Statement (.seByte x nn) := by
  rw [Statement, encode, rowMask, maskXNN, formXNN_and]
  simp only [BitVec.and_zero]
  rfl

theorem Laws.OpcodeRow.sneByte (x : Nibble) (nn : Byte) : Statement (.sneByte x nn) := by
  rw [Statement, encode, rowMask, maskXNN, formXNN_and]
  simp only [BitVec.and_zero]
  rfl

theorem Laws.OpcodeRow.seReg (x : Nibble) (y : Nibble) : Statement (.seReg x y) := by
  rw [Statement, encode, rowMask, maskXY, formXYN_and]
  simp only [BitVec.and_zero]
  rfl

theorem Laws.OpcodeRow.ldByte (x : Nibble) (nn : Byte) : Statement (.ldByte x nn) := by
  rw [Statement, encode, rowMask, maskXNN, formXNN_and]
  simp only [BitVec.and_zero]
  rfl

theorem Laws.OpcodeRow.addByte (x : Nibble) (nn : Byte) : Statement (.addByte x nn) := by
  rw [Statement, encode, rowMask, maskXNN, formXNN_and]
  simp only [BitVec.and_zero]
  rfl

theorem Laws.OpcodeRow.ldReg (x : Nibble) (y : Nibble) : Statement (.ldReg x y) := by
  rw [Statement, encode, rowMask, maskXY, formXYN_and]
  simp only [BitVec.and_zero]
  rfl

theorem Laws.OpcodeRow.orReg (x : Nibble) (y : Nibble) : Statement (.orReg x y) := by
  rw [Statement, encode, rowMask, maskXY, formXYN_and]
  simp only [BitVec.and_zero]
  rfl

theorem Laws.OpcodeRow.andReg (x : Nibble) (y : Nibble) : Statement (.andReg x y) := by
  rw [Statement, encode, rowMask, maskXY, formXYN_and]
  simp only [BitVec.and_zero]
  rfl

theorem Laws.OpcodeRow.xorReg (x : Nibble) (y : Nibble) : Statement (.xorReg x y) := by
  rw [Statement, encode, rowMask, maskXY, formXYN_and]
  simp only [BitVec.and_zero]
  rfl

theorem Laws.OpcodeRow.addReg (x : Nibble) (y : Nibble) : Statement (.addReg x y) := by
  rw [Statement, encode, rowMask, maskXY, formXYN_and]
  simp only [BitVec.and_zero]
  rfl

theorem Laws.OpcodeRow.subReg (x : Nibble) (y : Nibble) : Statement (.subReg x y) := by
  rw [Statement, encode, rowMask, maskXY, formXYN_and]
  simp only [BitVec.and_zero]
  rfl

theorem Laws.OpcodeRow.shr (x : Nibble) (y : Nibble) : Statement (.shr x y) := by
  rw [Statement, encode, rowMask, maskXY, formXYN_and]
  simp only [BitVec.and_zero]
  rfl

theorem Laws.OpcodeRow.subnReg (x : Nibble) (y : Nibble) : Statement (.subnReg x y) := by
  rw [Statement, encode, rowMask, maskXY, formXYN_and]
  simp only [BitVec.and_zero]
  rfl

theorem Laws.OpcodeRow.shl (x : Nibble) (y : Nibble) : Statement (.shl x y) := by
  rw [Statement, encode, rowMask, maskXY, formXYN_and]
  simp only [BitVec.and_zero]
  rfl

theorem Laws.OpcodeRow.sneReg (x : Nibble) (y : Nibble) : Statement (.sneReg x y) := by
  rw [Statement, encode, rowMask, maskXY, formXYN_and]
  simp only [BitVec.and_zero]
  rfl

theorem Laws.OpcodeRow.ldI (nnn : Imm12) : Statement (.ldI nnn) := by
  rw [Statement, encode, rowMask, maskNNN, formNNN_and]
  simp only [BitVec.and_zero]
  rfl

theorem Laws.OpcodeRow.jpV0 (nnn : Imm12) : Statement (.jpV0 nnn) := by
  rw [Statement, encode, rowMask, maskNNN, formNNN_and]
  simp only [BitVec.and_zero]
  rfl

theorem Laws.OpcodeRow.rnd (x : Nibble) (nn : Byte) : Statement (.rnd x nn) := by
  rw [Statement, encode, rowMask, maskXNN, formXNN_and]
  simp only [BitVec.and_zero]
  rfl

theorem Laws.OpcodeRow.drw (x : Nibble) (y : Nibble) (n : Nibble) : Statement (.drw x y n) := by
  rw [Statement, encode, rowMask, maskXYN, formXYN_and]
  simp only [BitVec.and_zero]
  rfl

theorem Laws.OpcodeRow.skp (x : Nibble) : Statement (.skp x) := by
  rw [Statement, encode, rowMask, maskX, formXNN_and]
  simp only [BitVec.and_zero]
  rfl

theorem Laws.OpcodeRow.sknp (x : Nibble) : Statement (.sknp x) := by
  rw [Statement, encode, rowMask, maskX, formXNN_and]
  simp only [BitVec.and_zero]
  rfl

theorem Laws.OpcodeRow.ldVxDT (x : Nibble) : Statement (.ldVxDT x) := by
  rw [Statement, encode, rowMask, maskX, formXNN_and]
  simp only [BitVec.and_zero]
  rfl

theorem Laws.OpcodeRow.ldVxK (x : Nibble) : Statement (.ldVxK x) := by
  rw [Statement, encode, rowMask, maskX, formXNN_and]
  simp only [BitVec.and_zero]
  rfl

theorem Laws.OpcodeRow.ldDTVx (x : Nibble) : Statement (.ldDTVx x) := by
  rw [Statement, encode, rowMask, maskX, formXNN_and]
  simp only [BitVec.and_zero]
  rfl

theorem Laws.OpcodeRow.ldSTVx (x : Nibble) : Statement (.ldSTVx x) := by
  rw [Statement, encode, rowMask, maskX, formXNN_and]
  simp only [BitVec.and_zero]
  rfl

theorem Laws.OpcodeRow.addIVx (x : Nibble) : Statement (.addIVx x) := by
  rw [Statement, encode, rowMask, maskX, formXNN_and]
  simp only [BitVec.and_zero]
  rfl

theorem Laws.OpcodeRow.ldFVx (x : Nibble) : Statement (.ldFVx x) := by
  rw [Statement, encode, rowMask, maskX, formXNN_and]
  simp only [BitVec.and_zero]
  rfl

theorem Laws.OpcodeRow.ldBVx (x : Nibble) : Statement (.ldBVx x) := by
  rw [Statement, encode, rowMask, maskX, formXNN_and]
  simp only [BitVec.and_zero]
  rfl

theorem Laws.OpcodeRow.storeRegs (x : Nibble) : Statement (.storeRegs x) := by
  rw [Statement, encode, rowMask, maskX, formXNN_and]
  simp only [BitVec.and_zero]
  rfl

theorem Laws.OpcodeRow.loadRegs (x : Nibble) : Statement (.loadRegs x) := by
  rw [Statement, encode, rowMask, maskX, formXNN_and]
  simp only [BitVec.and_zero]
  rfl

end Sys2Proof
end

