-- ==== Sys2Proof/Laws/Step.lean ====
section
/-! SUPPORT. What a Step can do, said once, and that a placed word is what the next Step runs. -/

namespace Sys2Proof.Machine

theorem step_halted {s : State} {f : Fault} (h : s.status = .halted f) : step s = .fault f := by
  simp [step, h]

theorem step_of_fetch_error {s : State} {f : Fault} (h : s.status = .running)
    (hf : fetch s = .error f) : step s = .next (takeFault f s) := by
  simp [step, h, hf, fetchFaultCycle, runCycle]

theorem step_of_decode_error {s : State} {op : Word} {e : DecodeError} (h : s.status = .running)
    (hf : fetch s = .ok op) (hd : decode op = .error e) :
    step s = .next (takeFault (.invalidOpcode op) s) := by
  simp [step, h, hf, hd, invalidCycle, runCycle]

theorem step_of_decode_ok {s : State} {op : Word} {i : Instr} (h : s.status = .running)
    (hf : fetch s = .ok op) (hd : decode op = .ok i) : step s = exec i s := by
  simp [step, h, hf, hd]

/-- Everything a Step that answers a next state can have done: a fetch that faulted, a word that is
no instruction, or one instruction (R49, R51, R53, R54). -/
theorem step_cases {s t : State} (h : step s = .next t) :
    s.status = .running ∧
      ((∃ f, fetch s = .error f ∧ t = takeFault f s) ∨
        (∃ op, fetch s = .ok op ∧ decode op = .error (.invalidOpcode op) ∧
          t = takeFault (.invalidOpcode op) s) ∨
        ∃ op i, fetch s = .ok op ∧ decode op = .ok i ∧ exec i s = .next t) := by
  cases hs : s.status with
  | halted f => rw [step_halted hs] at h; cases h
  | running =>
    refine ⟨rfl, ?_⟩
    cases hf : fetch s with
    | error f =>
      rw [step_of_fetch_error hs hf] at h
      exact .inl ⟨f, rfl, by cases h; rfl⟩
    | ok op =>
      cases hd : decode op with
      | error e =>
        rw [step_of_decode_error hs hf hd] at h
        exact .inr (.inl ⟨op, rfl, by rw [hd, decode_error hd], by cases h; rfl⟩)
      | ok i =>
        rw [step_of_decode_ok hs hf hd] at h
        exact .inr (.inr ⟨op, i, rfl, hd, h⟩)

theorem fetchablePc_le (pc : Word) : (fetchablePc pc).toNat ≤ 0xFFE := by
  simp only [fetchablePc]
  split
  · assumption
  · decide

/-- The fetch of a placed word reads it (log entry 6). -/
theorem fetch_placeWord (s : State) (op : Word) : fetch (placeWord s op) = .ok op := by
  rw [fetch_of_le (fetchablePc_le s.pc)]
  simp only [placeWord, Memory.read_write]
  simp

/-- A word placed where the next Step fetches is the instruction that Step runs. -/
theorem step_placeWord {s : State} {op : Word} {i : Instr} (h : decode op = .ok i) :
    step (placeWord s op) = exec i (placeWord s op) :=
  step_of_decode_ok rfl (fetch_placeWord s op) h

end Sys2Proof.Machine
end

