-- ==== Sys2Proof/Tests/Slice0.lean ====
section
/-! SUPPORT. The model's own tests: ill-formed operands refused, every constructor's word written out
from the spec's encoding of it, single steps with the results of spec/95_test_vectors.md, and for every
obligation with hypotheses a state and operands that meet them. -/

namespace Sys2Proof.Tests

open Sys2Proof.Machine

/-! ## WellFormed: a number out of each range is refused (R40, R41) -/

theorem test_wf_reg : regInRange 16 = false ∧ regInRange 15 = true := by decide
theorem test_wf_count : countInRange 16 = false ∧ countInRange 15 = true := by decide
theorem test_wf_byte : byteInRange 0x100 = false ∧ byteInRange 0xFF = true := by decide
theorem test_wf_addr : addrInRange 0x1000 = false ∧ addrInRange 0xFFF = true := by decide
theorem test_wf_instr : (Instr.drw 0xF#4 0xF#4 0xF#4).WellFormed = true := by decide

/-! ## Decoding: words written out from the patterns of R42, every field a different value -/

theorem test_decode_nop : decodeTableWord 16 0x0000 = some .nop := by decide
theorem test_decode_cls : decodeTableWord 16 0x00E0 = some .cls := by decide
theorem test_decode_ret : decodeTableWord 16 0x00EE = some .ret := by decide
theorem test_decode_jp : decodeTableWord 16 0x1ABC = some (.jp 0xABC#12) := by decide
theorem test_decode_call : decodeTableWord 16 0x2F01 = some (.call 0xF01#12) := by decide
theorem test_decode_seByte : decodeTableWord 16 0x3A5C = some (.seByte 0xA#4 0x5C#8) := by decide
theorem test_decode_sneByte : decodeTableWord 16 0x4B6D = some (.sneByte 0xB#4 0x6D#8) := by decide
theorem test_decode_seReg : decodeTableWord 16 0x5C70 = some (.seReg 0xC#4 0x7#4) := by decide
theorem test_decode_ldByte : decodeTableWord 16 0x6D81 = some (.ldByte 0xD#4 0x81#8) := by decide
theorem test_decode_addByte : decodeTableWord 16 0x7E92 = some (.addByte 0xE#4 0x92#8) := by decide
theorem test_decode_ldReg : decodeTableWord 16 0x8120 = some (.ldReg 0x1#4 0x2#4) := by decide
theorem test_decode_orReg : decodeTableWord 16 0x8231 = some (.orReg 0x2#4 0x3#4) := by decide
theorem test_decode_andReg : decodeTableWord 16 0x8342 = some (.andReg 0x3#4 0x4#4) := by decide
theorem test_decode_xorReg : decodeTableWord 16 0x8453 = some (.xorReg 0x4#4 0x5#4) := by decide
theorem test_decode_addReg : decodeTableWord 16 0x8564 = some (.addReg 0x5#4 0x6#4) := by decide
theorem test_decode_subReg : decodeTableWord 16 0x8675 = some (.subReg 0x6#4 0x7#4) := by decide
theorem test_decode_shr : decodeTableWord 16 0x8786 = some (.shr 0x7#4 0x8#4) := by decide
theorem test_decode_subnReg : decodeTableWord 16 0x8897 = some (.subnReg 0x8#4 0x9#4) := by decide
theorem test_decode_shl : decodeTableWord 16 0x89AE = some (.shl 0x9#4 0xA#4) := by decide
theorem test_decode_sneReg : decodeTableWord 16 0x9AB0 = some (.sneReg 0xA#4 0xB#4) := by decide
theorem test_decode_ldI : decodeTableWord 16 0xA123 = some (.ldI 0x123#12) := by decide
theorem test_decode_jpV0 : decodeTableWord 16 0xB456 = some (.jpV0 0x456#12) := by decide
theorem test_decode_rnd : decodeTableWord 16 0xC789 = some (.rnd 0x7#4 0x89#8) := by decide
theorem test_decode_drw : decodeTableWord 16 0xD9A4 = some (.drw 0x9#4 0xA#4 0x4#4) := by decide
theorem test_decode_skp : decodeTableWord 16 0xE19E = some (.skp 0x1#4) := by decide
theorem test_decode_sknp : decodeTableWord 16 0xE2A1 = some (.sknp 0x2#4) := by decide
theorem test_decode_ldVxDT : decodeTableWord 16 0xF307 = some (.ldVxDT 0x3#4) := by decide
theorem test_decode_ldVxK : decodeTableWord 16 0xF40A = some (.ldVxK 0x4#4) := by decide
theorem test_decode_ldDTVx : decodeTableWord 16 0xF515 = some (.ldDTVx 0x5#4) := by decide
theorem test_decode_ldSTVx : decodeTableWord 16 0xF618 = some (.ldSTVx 0x6#4) := by decide
theorem test_decode_addIVx : decodeTableWord 16 0xF71E = some (.addIVx 0x7#4) := by decide
theorem test_decode_ldFVx : decodeTableWord 16 0xF829 = some (.ldFVx 0x8#4) := by decide
theorem test_decode_ldBVx : decodeTableWord 16 0xF933 = some (.ldBVx 0x9#4) := by decide
theorem test_decode_storeRegs : decodeTableWord 16 0xFA55 = some (.storeRegs 0xA#4) := by decide
theorem test_decode_loadRegs : decodeTableWord 16 0xFB65 = some (.loadRegs 0xB#4) := by decide

/-- V20–V22, V47, V82: words outside the patterns (R43). -/
theorem test_decode_invalid :
    [0x0123, 0x00E1, 0x0FFF, 0x5001, 0x5121, 0x9121, 0x8128, 0x8129, 0x812A, 0x812B, 0x812C, 0x812D,
      0x812F, 0xE09F, 0xF000, 0xF0FF].all (fun w => decodeTableWord 16 w == none) = true := by decide

/-- The bytes of a word, high byte first (R31). -/
theorem test_decode_bytes :
    decodeBytes [0x12#8, 0x34#8, 0xFF#8] = .ok (.jp 0x234#12, [0xFF#8]) := rfl

/-- R47's spelling. -/
theorem test_spelling : (Instr.drw 0x0#4 0xA#4 0x5#4).spelling = "DRW V0, VA, 5" ∧
    (Instr.jp 0x2F0#12).spelling = "JP 2F0" := by decide

/-! ## Small states -/

/-- The reset state with some registers set, the "Start" of spec/95_test_vectors.md. -/
def regs (l : List (Nibble × Byte)) : State := l.foldl (fun s p => s.setV p.1 p.2) State.reset

/-- With bytes in memory from an address on. -/
def withBytes (s : State) (a : Nat) (bs : List Byte) : State := { s with mem := copyBytes s.mem a bs }

/-- The state one Step leaves, the word `w` placed at PC. -/
def run (w : Nat) (s : State) : State := stepState (s.withFetchWord 16 w)

/-- What that Step returns. -/
def result (w : Nat) (s : State) : StepResult := stepResult (s.withFetchWord 16 w)

/-- A core halted by a fault. -/
def halted (f : Fault) : State := { State.reset with status := .halted f }

/-- The lit pixels of the 16 by 8 corner. -/
def litCorner (scr : Screen) : List (Nat × Nat) :=
  ((List.range 8).flatMap fun y => (List.range 16).map fun x => (x, y)).filter fun p => scr.pixel p.1 p.2

/-- Glyph 0 of R29, at 0x300. -/
def glyphState (l : List (Nibble × Byte)) : State :=
  { withBytes (regs l) 0x300 [0xF0#8, 0x90#8, 0x90#8, 0x90#8, 0xF0#8] with i := 0x300#16 }

/-! ## Single steps (the vectors of spec/95_test_vectors.md, by number) -/

/-- V1. -/
theorem test_nop : (run 0x0000 State.reset).pc = 0x202#16 := by decide
/-- V2. -/
theorem test_jp : (run 0x1234 State.reset).pc = 0x234#16 := by decide
/-- V3. -/
theorem test_jp_top : (stepState (run 0x1FFF State.reset)).status = .halted (.memoryOutOfBounds 0x1000) ∧
    (stepState (run 0x1FFF State.reset)).pc = 0xFFF#16 := by decide
/-- V5. -/
theorem test_call : let t := run 0x2210 { State.reset with pc := 0x204#16 }
    t.getStack 0 = 0x206#16 ∧ t.sp = 1 ∧ t.pc = 0x210#16 := by decide
/-- V6. -/
theorem test_call_full : let t := run 0x2300 { State.reset with pc := 0x204#16, sp := 16 }
    t.status = .halted .stackOverflow ∧ t.pc = 0x204#16 ∧ t.sp = 16 := by decide
/-- V7. -/
theorem test_ret_empty : result 0x00EE State.reset = .fault .stackUnderflow := by decide
/-- V8. -/
theorem test_ret : let s := { State.reset with sp := 1, stack := State.reset.stack.set 0 0x206#16 }
    let t := run 0x00EE s
    t.pc = 0x206#16 ∧ t.sp = 0 ∧ t.getStack 0 = 0x206#16 := by decide
/-- V9. -/
theorem test_seByte : (run 0x3310 (regs [(3, 0x10)])).pc = 0x204#16 := by decide
/-- V10. -/
theorem test_seByte_no : (run 0x3310 (regs [(3, 0x11)])).pc = 0x202#16 := by decide
/-- V11. -/
theorem test_sneByte_no : (run 0x4310 (regs [(3, 0x10)])).pc = 0x202#16 := by decide
/-- V12. -/
theorem test_sneByte : (run 0x4310 (regs [(3, 0x11)])).pc = 0x204#16 := by decide
/-- V13. -/
theorem test_seReg : (run 0x5120 (regs [(1, 7), (2, 7)])).pc = 0x204#16 := by decide
/-- V15. -/
theorem test_sneReg : (run 0x9120 (regs [(1, 7), (2, 8)])).pc = 0x204#16 := by decide
/-- V16. -/
theorem test_sneReg_same : (run 0x9110 (regs [(1, 7)])).pc = 0x202#16 := by decide
/-- V17. -/
theorem test_jpV0 : (run 0xB300 (regs [(0, 4)])).pc = 0x304#16 := by decide
/-- V18. -/
theorem test_jpV0_top : (run 0xBFFF (regs [(0, 0xFF)])).pc = 0x10FE#16 ∧
    (stepState (run 0xBFFF (regs [(0, 0xFF)]))).status = .halted (.memoryOutOfBounds 0x10FE) := by decide
/-- V19. -/
theorem test_skip_top : (run 0x3000 { State.reset with pc := 0xFFC#16 }).pc = 0x1000#16 := by decide
/-- S11. -/
theorem test_invalid : result 0x5001 State.reset = .fault (.invalidOpcode 0x5001#16) ∧
    (run 0x5001 State.reset).pc = 0x200#16 := by decide
/-- S1. -/
theorem test_ldByte : (run 0x6A42 State.reset).getV 0xA = 0x42#8 := by decide
/-- S2. -/
theorem test_addByte : let t := run 0x7301 (regs [(3, 0xFF), (0xF, 0x5A)])
    t.getV 3 = 0#8 ∧ t.getV 0xF = 0x5A#8 := by decide
/-- V24. -/
theorem test_addByte_vf : (run 0x7F01 (regs [(0xF, 0xFF)])).getV 0xF = 0#8 := by decide
/-- V26. -/
theorem test_ldReg : (run 0x8120 (regs [(2, 0x33)])).getV 1 = 0x33#8 := by decide
/-- V28. -/
theorem test_orReg : (run 0x8121 (regs [(1, 0xF0), (2, 0x0F)])).getV 1 = 0xFF#8 := by decide
/-- V27. -/
theorem test_orReg_vf : (run 0x8111 (regs [(1, 0x55), (0xF, 1)])).getV 0xF = 1#8 := by decide
/-- V29. -/
theorem test_andReg : (run 0x8122 (regs [(1, 0xF0), (2, 0x3C)])).getV 1 = 0x30#8 := by decide
/-- V30. -/
theorem test_xorReg : (run 0x8123 (regs [(1, 0xF0), (2, 0x3C)])).getV 1 = 0xCC#8 := by decide
/-- S3a. -/
theorem test_addReg : let t := run 0x8124 (regs [(1, 0xFF), (2, 1)])
    t.getV 1 = 0#8 ∧ t.getV 0xF = 1#8 := by decide
/-- V33. -/
theorem test_addReg_vf : (run 0x8F14 (regs [(0xF, 0xFF), (1, 1)])).getV 0xF = 1#8 := by decide
/-- S4b. -/
theorem test_subReg : let t := run 0x8125 (regs [(1, 3), (2, 5)])
    t.getV 1 = 0xFE#8 ∧ t.getV 0xF = 0#8 := by decide
/-- V35, V36. -/
theorem test_subReg_vf : (run 0x8125 (regs [(1, 7), (2, 7)])).getV 0xF = 1#8 ∧
    (run 0x8F15 (regs [(0xF, 5), (1, 6)])).getV 0xF = 0#8 := by decide
/-- V37. -/
theorem test_shr : let t := run 0x8106 (regs [(1, 5)])
    t.getV 1 = 2#8 ∧ t.getV 0xF = 1#8 := by decide
/-- V38. -/
theorem test_shr_y : let t := run 0x81F6 (regs [(1, 4), (0xF, 9)])
    t.getV 1 = 2#8 ∧ t.getV 0xF = 0#8 := by decide
/-- V41. -/
theorem test_subnReg : let t := run 0x8127 (regs [(1, 5), (2, 3)])
    t.getV 1 = 0xFE#8 ∧ t.getV 0xF = 0#8 := by decide
/-- V42. -/
theorem test_shl : let t := run 0x810E (regs [(1, 0x81)])
    t.getV 1 = 2#8 ∧ t.getV 0xF = 1#8 := by decide
/-- V43. -/
theorem test_shl_vf : (run 0x8F0E (regs [(0xF, 0x40)])).getV 0xF = 0#8 := by decide
/-- V45: the draw is a premise. -/
theorem test_rnd (h : Config.rand 0 = 0xA7#8) : (run 0xC10F State.reset).getV 1 = 7#8 := by
  have e : (run 0xC10F State.reset).getV 1 = Config.rand 0 &&& 0x0F#8 := rfl
  rw [e, h]; decide
/-- V48. -/
theorem test_ldI : (run 0xA300 State.reset).i = 0x300#16 := by decide
/-- V50. -/
theorem test_addIVx : let t := run 0xF01E { regs [(0, 1)] with i := 0xFFF#16 }
    t.i = 0x1000#16 ∧ t.status = .running := by decide
/-- V51. -/
theorem test_addIVx_overflow :
    result 0xF01E { regs [(0, 1)] with i := 0xFFFF#16 } = .fault (.indexOverflow 0x10000) := by decide
/-- V52, V53. -/
theorem test_ldFVx : (run 0xF329 (regs [(3, 0xA)])).i = 0x032#16 ∧
    (run 0xF029 (regs [(0, 0x20)])).i = 0x0A0#16 := by decide
/-- S8. -/
theorem test_ldBVx : let t := run 0xF033 { regs [(0, 157)] with i := 0x300#16 }
    (t.mem.read 0x300, t.mem.read 0x301, t.mem.read 0x302) = (1#8, 5#8, 7#8) := by decide
/-- V56. -/
theorem test_ldBVx_top : let t := run 0xF033 { regs [(0, 157)] with i := 0xFFE#16 }
    t.status = .halted (.memoryOutOfBounds 0x1000) ∧ t.mem.read 0xFFE = 0#8 := by decide
/-- V57. -/
theorem test_storeRegs : let t := run 0xF355 { regs [(0, 1), (1, 2), (2, 3), (3, 4)] with i := 0xFFC#16 }
    [0xFFC, 0xFFD, 0xFFE, 0xFFF].map t.mem.read = [1#8, 2#8, 3#8, 4#8] ∧ t.i = 0xFFC#16 := by decide
/-- V58. -/
theorem test_storeRegs_top :
    let t := run 0xF355 { regs [(0, 1), (1, 2), (2, 3), (3, 4)] with i := 0xFFD#16 }
    t.status = .halted (.memoryOutOfBounds 0x1000) ∧ t.mem.read 0xFFD = 0#8 := by decide
/-- V59, the first and last registers. -/
theorem test_loadRegs :
    let s := withBytes State.reset 0x300 ((List.range 16).map fun k => BitVec.ofNat 8 (16 + k))
    let t := run 0xFF65 { s with i := 0x300#16 }
    t.getV 0 = 0x10#8 ∧ t.getV 0xE = 0x1E#8 ∧ t.getV 0xF = 0x1F#8 := by decide
/-- V60. -/
theorem test_loadRegs_top : result 0xF165 { State.reset with i := 0xFFF#16 } =
    .fault (.memoryOutOfBounds 0x1000) := by decide
/-- S6, V62 at one pixel. -/
theorem test_cls : (run 0x00E0 { State.reset with screen := Screen.blank.flip 63 31 }).screen.pixel 63 31 =
    false := by decide
/-- V63, the glyph bytes of R29 taken from 0x300 instead of the font region. -/
theorem test_drw : let t := run 0xD015 (glyphState [(0xF, 7)])
    t.getV 0xF = 0#8 ∧ litCorner t.screen =
      [(0, 0), (1, 0), (2, 0), (3, 0), (0, 1), (3, 1), (0, 2), (3, 2), (0, 3), (3, 3), (0, 4), (1, 4),
        (2, 4), (3, 4)] := by decide
/-- V64, part: both axes wrap. -/
theorem test_drw_wrap : litCorner (run 0xD015 (glyphState [(0, 62), (1, 30)])).screen =
    [(1, 0), (1, 1), (0, 2), (1, 2)] := by decide
/-- V67. -/
theorem test_drw_top : let t := run 0xD013 { regs [(0xF, 7)] with i := 0xFFE#16 }
    t.status = .halted (.memoryOutOfBounds 0x1000) ∧ t.getV 0xF = 7#8 := by decide
/-- V69, V70. -/
theorem test_skp : (run 0xE59E ((regs [(5, 0xA)]).setKeyFlag 0xA true)).pc = 0x204#16 ∧
    (run 0xE59E (regs [(5, 0xA)])).pc = 0x202#16 := by decide
/-- V72. -/
theorem test_skp_range : result 0xE09E (regs [(0, 0x10)]) = .fault (.keyIndexOutOfRange 0x10#8) := by decide
/-- V71. -/
theorem test_sknp : (run 0xE5A1 (regs [(5, 0xA)])).pc = 0x204#16 := by decide
/-- V73. -/
theorem test_sknp_range : result 0xE0A1 (regs [(0, 0xFF)]) = .fault (.keyIndexOutOfRange 0xFF#8) := by decide
/-- V74. -/
theorem test_ldVxDT : (run 0xF307 { State.reset with dt := 0x3C#8 }).getV 3 = 0x3C#8 := by decide
/-- V75. -/
theorem test_ldDTVx : (run 0xF315 (regs [(3, 0x3C)])).dt = 0x3C#8 := by decide
/-- V76. -/
theorem test_ldSTVx : (run 0xF318 (regs [(3, 5)])).st = 5#8 := by decide
/-- V77. -/
theorem test_ldVxK : let s := (State.reset.setKeyFlag 5 true).setKeyFlag 2 true
    (run 0xF00A s).getV 0 = 2#8 ∧ (run 0xF00A s).pc = 0x202#16 ∧ result 0xF00A s = .ok := by decide
/-- V78. -/
theorem test_ldVxK_wait : (run 0xF00A State.reset).pc = 0x200#16 ∧
    result 0xF00A State.reset = .waiting := by decide

/-! ## Events -/

/-- V79, V80. -/
theorem test_tick : let t := tick { State.reset with dt := 2#8, st := 1#8 }
    t.dt = 1#8 ∧ t.st = 0#8 ∧ (tick t).st = 0#8 := by decide
/-- V86: SetKey acts on a halted core. -/
theorem test_setKey_halted : let t := setKey 3 true (halted .stackOverflow)
    t.getKey 3 = true ∧ t.status = .halted .stackOverflow := by decide
/-- R113: a Load into a halted core writes memory and leaves the core halted. -/
theorem test_load_halted : let t := (load [0x12#8, 0x34#8] (halted .stackOverflow)).1
    t.mem.read 0x200 = 0x12#8 ∧ t.mem.read 0x201 = 0x34#8 ∧ t.status = .halted .stackOverflow := by decide
/-- V87. -/
theorem test_reset_halted : (resetCore (halted .stackOverflow)).status = .running := by decide
/-- V88's last Step. -/
theorem test_run_off : stepResult { State.reset with pc := 0x1000#16 } =
    .fault (.memoryOutOfBounds 0x1000) := by decide
/-- V52's glyph address is where the default font keeps glyph A (R29). -/
theorem test_font (h : Config.FontIsDefault) : memRead State.reset 0x032 = .ok 0xF0#8 := by
  have e : memRead State.reset 0x032 = .ok (Config.font 0x032) := rfl
  rw [e, h 0x032 (by decide)]; rfl

/-! ## Witnesses: a state and operands that meet each statement's hypotheses -/

/-- One word per clause of the opcode map, the digit and minor opcode of R42; the decoding clauses of the
per-instruction statements are among these. -/
theorem wit_DecodeFollowsTheOpcodeMap :
    [0x1, 0x2, 0x3, 0x4, 0x6, 0x7, 0xA, 0xB, 0xC, 0xD].all
        (fun d => (BitVec.ofNat 16 (d * 4096 + 0xFFF)).toNat / 4096 == d) = true ∧
      [(0x5, 0x0), (0x8, 0x0), (0x8, 0x1), (0x8, 0x2), (0x8, 0x3), (0x8, 0x4), (0x8, 0x5), (0x8, 0x6),
          (0x8, 0x7), (0x8, 0xE), (0x9, 0x0)].all
        (fun p => let w := (BitVec.ofNat 16 (p.1 * 4096 + 0xFF0 + p.2)).toNat
          w / 4096 == p.1 && w % 16 == p.2) = true ∧
      [(0xE, 0x9E), (0xE, 0xA1), (0xF, 0x07), (0xF, 0x0A), (0xF, 0x15), (0xF, 0x18), (0xF, 0x1E),
          (0xF, 0x29), (0xF, 0x33), (0xF, 0x55), (0xF, 0x65)].all
        (fun p => let w := (BitVec.ofNat 16 (p.1 * 4096 + 0xF00 + p.2)).toNat
          w / 4096 == p.1 && w % 256 == p.2) = true ∧
      (0x0000#16).toNat = 0 ∧ (0x00E0#16).toNat = 0x00E0 ∧ (0x00EE#16).toNat = 0x00EE ∧
      (0x0FFF#16).toNat / 4096 = 0 ∧ (0x0FFF#16).toNat ∉ [0x0000, 0x00E0, 0x00EE] ∧
      (0x5FFF#16).toNat / 4096 = 5 ∧ (0x5FFF#16).toNat % 16 ≠ 0 ∧
      (0x8FFF#16).toNat / 4096 = 8 ∧ (0x8FFF#16).toNat % 16 = 0xF ∧
      (0x9FFF#16).toNat / 4096 = 9 ∧ (0x9FFF#16).toNat % 16 ≠ 0 ∧
      (0xEFFF#16).toNat / 4096 = 0xE ∧ (0xEFFF#16).toNat % 256 ∉ [0x9E, 0xA1] ∧
      (0xFFFF#16).toNat / 4096 = 0xF ∧
      (0xFFFF#16).toNat % 256 ∉ [0x07, 0x0A, 0x15, 0x18, 0x1E, 0x29, 0x33, 0x55, 0x65] := by decide

theorem wit_EncodeOfDecode : decode 0xFFFF#16 = .error (.invalidOpcode 0xFFFF#16) ∧
    decode 0xDFFF#16 = .ok (.drw 0xF#4 0xF#4 0xF#4) := ⟨rfl, rfl⟩

theorem wit_InvalidWordsHalt : InvalidWord 0x0001#16 ∧ InvalidWord 0xFFFF#16 ∧ ¬ InvalidWord 0x00E0#16 ∧
    ∃ s, s.status = .running ∧ fetch s = .ok 0x0001#16 :=
  ⟨.inl (by decide), by unfold InvalidWord; decide, by unfold InvalidWord; decide, State.reset.withFetchWord 16 0x0001, rfl, rfl⟩

theorem wit_StepRunsTheDecodedInstruction :
    State.reset.status = .running ∧ State.reset.pc.toNat ≤ 0xFFE ∧
      decode (opcodeOfBytes (State.reset.mem.read 0x200) (State.reset.mem.read 0x201)) = .ok .nop :=
  ⟨rfl, by decide, rfl⟩

theorem wit_FetchReadsTwoBytesOrFaults : (0xFFE#16).toNat ≤ 0xFFE ∧ 0x1000 ≤ (0x1000#16).toNat ∧
    (0x0FFF#16).toNat = 0x0FFF ∧ ({ State.reset with pc := 0x1000#16 } : State).status = .running := by
  decide

theorem wit_HaltedStepRepeatsItsFault :
    (halted .stackUnderflow).status = .halted .stackUnderflow := rfl

theorem wit_FaultUndoesTheCycle : ∃ s t f, s.status = .running ∧ step s = .next t ∧ t.status = .halted f :=
  ⟨{ State.reset with pc := 0xFFF#16 }, _, _, rfl, rfl, rfl⟩

theorem wit_RunningStepAnswersNext : State.reset.status = .running := rfl

theorem wit_FaultRecordsAreLegal : ∃ s t k, s.status = .running ∧ step s = .next t ∧
    t.status = .halted (.keyIndexOutOfRange k) :=
  ⟨(regs [(0, 0x10)]).withFetchWord 16 0xE09E, _, _, rfl, rfl, rfl⟩

theorem wit_KeysAreWrittenBySetKeyOnly : (∃ t, exec .cls State.reset = .next t) ∧ Event.tick ≠ .reset ∧
    ∀ k b, Event.tick ≠ .setKey k b := ⟨⟨_, rfl⟩, by decide, by decide⟩

/-- Each clause's piece does change in some instruction. -/
theorem wit_OnlyTheNamedInstructionsWrite :
    (∃ t, exec (.ldI 1#12) State.reset = .next t ∧ t.i ≠ State.reset.i) ∧
    (∃ t, exec (.call 1#12) State.reset = .next t ∧ t.sp ≠ State.reset.sp ∧
      t.stack ≠ State.reset.stack) ∧
    (∃ t, exec (.ldDTVx 0#4) (regs [(0, 1)]) = .next t ∧ t.dt ≠ (regs [(0, 1)]).dt) ∧
    (∃ t, exec (.ldSTVx 0#4) (regs [(0, 1)]) = .next t ∧ t.st ≠ (regs [(0, 1)]).st) ∧
    (∃ t, exec (.drw 0#4 0#4 1#4) (glyphState []) = .next t ∧ t.screen ≠ (glyphState []).screen) ∧
    (∃ t, exec (.storeRegs 0#4) { regs [(0, 1)] with i := 0x300#16 } = .next t ∧
      t.mem ≠ (regs [(0, 1)]).mem) ∧
    ∃ t, exec (.rnd 0#4 0#8) State.reset = .next t ∧ t.draws ≠ State.reset.draws :=
  ⟨⟨_, rfl, by decide⟩, ⟨_, rfl, by decide, by decide⟩, ⟨_, rfl, by decide⟩, ⟨_, rfl, by decide⟩,
    ⟨_, rfl, by decide⟩, ⟨_, rfl, by decide⟩, ⟨_, rfl, by decide⟩⟩

theorem wit_FlagWritersLeaveZeroOrOne : ∃ t, exec (.addReg 0xF#4 0xF#4) State.reset = .next t ∧
    Instr.addReg 0xF#4 0xF#4 ∈ [Instr.addReg 0xF#4 0xF#4, .subReg 0xF#4 0xF#4] := ⟨_, rfl, by decide⟩

theorem wit_SoundTimerIsNeverRead : ∃ t, step State.reset = .next t := ⟨_, rfl⟩

/-- A state that meets the invariant and steps, at the bound on PC too. -/
theorem wit_StepKeepsTheInvariant : ∃ s t, RunInv s ∧ step s = .next t := by
  refine ⟨State.reset, _, ⟨reset_mem_wf, by decide, by decide, ?_⟩, rfl⟩
  rintro f h; cases h

theorem wit_StepKeepsTheInvariant_top :
    ∃ s t, RunInv s ∧ s.pc = 0x10FE#16 ∧ s.sp = 16 ∧ step s = .next t := by
  refine ⟨{ State.reset with pc := 0x10FE#16, sp := 16 }, _, ⟨reset_mem_wf, by decide, by decide, ?_⟩,
    rfl, rfl, rfl⟩
  rintro f h; cases h

theorem wit_TickCountsDown : State.reset.status = .running ∧
    (halted .stackOverflow).status = .halted .stackOverflow := ⟨rfl, rfl⟩

theorem wit_LoadCopiesOrHalts : (List.replicate 3584 1#8).length ≤ 3584 ∧
    3584 < (List.replicate 3585 1#8).length ∧ State.reset.status = .running := by
  simp only [List.length_replicate]; decide

/-- A program of one byte, and the longest Load copies. -/
theorem wit_OnlyResetEndsAHalt : (halted .stackOverflow).status = .halted .stackOverflow ∧
    [1#8].length ≤ 3584 ∧ 0 < [1#8].length ∧
    (List.replicate 3584 1#8).length ≤ 3584 ∧ 3583 < (List.replicate 3584 1#8).length ∧
    Event.reset ∉ [.step, .tick, .load [1#8], .setKey 0#4 true, .observe] := by
  simp only [List.length_replicate]; decide

/-- V4: the reset state with 1200 at 0x200 is idle. -/
theorem wit_IdleStepsChangeNothing : Idle (State.reset.withFetchWord 16 0x1200) := by
  refine ⟨rfl, ?_, ?_⟩ <;> decide

/-- Idle at 0xFFE, the last address a JP can be fetched from. -/
theorem wit_IdleStepsChangeNothing_top :
    Idle ({ State.reset with pc := 0xFFE#16 }.withFetchWord 16 0x1FFE) := by
  refine ⟨rfl, ?_, ?_⟩ <;> decide

theorem wit_BootFetchesTheProgram : ([] : List Byte).length ≤ 3584 ∧ [0x12#8].length ≤ 3584 := by decide

theorem wit_MemoryReadsBackWrites : 4095 < 4096 ∧ 4096 ≤ 4096 ∧ State.reset.mem.wf :=
  ⟨by decide, by decide, reset_mem_wf⟩

theorem wit_StoresAreSeenByTheNextFetch : ∃ s : State, 1 ≤ (1#4).toNat ∧
    s.i.toNat = s.pc.toNat + 2 ∧ s.i.toNat + (1#4).toNat < 4096 :=
  ⟨{ State.reset with pc := 0xFFC#16, i := 0xFFE#16 }, by decide, by decide, by decide⟩

theorem wit_NopOnlyAdvances : (∃ s : State, s.status = .running ∧ s.pc.toNat = 0xFFE ∧
      s.mem.read s.pc.toNat = 0#8 ∧ s.mem.read (s.pc.toNat + 1) = 0#8) ∧
    ∃ s : State, s.status = .running ∧ s.pc = 0x1000#16 :=
  ⟨⟨{ State.reset with pc := 0xFFE#16 }, rfl, rfl, rfl, rfl⟩, { State.reset with pc := 0x1000#16 }, rfl, rfl⟩

/-- SP = 0, SP = 1 and SP = 16, a popped entry at 0xFFF. -/
theorem wit_RetPopsOrUnderflows : State.reset.sp.val = 0 ∧
    (∃ s : State, s.sp.val = (0 : Fin 16).val + 1 ∧ s.status = .running ∧
      (s.getStack 0).toNat = 0xFFF) ∧
    ∃ s : State, s.sp.val = (15 : Fin 16).val + 1 :=
  ⟨rfl, ⟨{ State.reset with sp := 1, stack := State.reset.stack.set 0 0xFFF#16 }, rfl, rfl, rfl⟩,
    { State.reset with sp := 16 }, rfl⟩

theorem wit_JpJumps : (0xFFF#12).toNat = 0xFFF ∧ State.reset.status = .running ∧
    State.reset.pc.toNat = (0x200#12).toNat := ⟨rfl, rfl, rfl⟩

/-- SP = 16, SP = 15 and SP = 0. -/
theorem wit_CallPushesOrOverflows : (∃ s : State, s.sp.val = 16) ∧
    (∃ s : State, s.sp.val = (15 : Fin 16).val) ∧ State.reset.sp.val = (0 : Fin 16).val :=
  ⟨⟨{ State.reset with sp := 16 }, rfl⟩, ⟨{ State.reset with sp := 15 }, rfl⟩, rfl⟩

theorem wit_RetUndoesCall : ∃ s t u : State, s.sp.val < 16 ∧ exec (.call 0x210#12) s = .next t ∧
    u.sp = t.sp ∧ u.stack = t.stack :=
  ⟨{ State.reset with sp := 15 }, _, _, by decide, rfl, rfl, rfl⟩

/-- Equal and unequal, one register and two. -/
theorem wit_Compares : (regs [(3, 0x10)]).getV 3 = 0x10#8 ∧ (regs [(3, 0x11)]).getV 3 ≠ 0x10#8 ∧
    (0x5120#16).toNat / 4096 = 5 ∧ (0x5120#16).toNat % 16 = 0 ∧ (0x9121#16).toNat / 4096 = 9 ∧
    (0x9121#16).toNat % 16 ≠ 0 ∧ (0x3310#16).toNat / 4096 = 3 ∧ (0x4310#16).toNat / 4096 = 4 := by decide

theorem wit_JpV0JumpsUnreduced : ∃ t, exec (.jpV0 0xFFF#12) (regs [(0, 0xFF)]) = .next t ∧
    (regs [(0, 0xFF)]).status = .running ∧ 0xFFF ≤ t.pc.toNat := ⟨_, rfl, rfl, by decide⟩

/-- The registers a result is stated for: any but VF; and any register for which another is left. -/
theorem wit_AluResults : (0xE#4) ≠ 0xF#4 ∧ (0x0#4) ≠ 0x1#4 ∧ (0x6A42#16).toNat / 4096 = 6 ∧
    (0x7301#16).toNat / 4096 = 7 ∧ (0x8120#16).toNat / 4096 = 8 ∧ (0x8120#16).toNat % 16 = 0 := by decide

/-- The sum at 0xFFFF and at 0x10000. -/
theorem wit_AddIOrOverflow :
    (∃ s : State, s.i.toNat + (s.getV 0).toNat = 0xFFFF) ∧ ∃ s : State, s.i.toNat + (s.getV 0).toNat = 0x10000 :=
  ⟨⟨{ regs [(0, 1)] with i := 0xFFFE#16 }, by decide⟩, ⟨{ regs [(0, 1)] with i := 0xFFFF#16 }, by decide⟩⟩

/-- The last byte at 0xFFF and at 0x1000. -/
theorem wit_BcdStoresDigits : (∃ s : State, s.i.toNat + 2 = 4095) ∧ ∃ s : State, s.i.toNat + 2 = 4096 :=
  ⟨⟨{ State.reset with i := 0xFFD#16 }, by decide⟩, ⟨{ State.reset with i := 0xFFE#16 }, by decide⟩⟩

/-- FX55 and FX65 alike: the last byte at 0xFFF and at 0x1000, X the largest. -/
theorem wit_RegisterMoves : (∃ s : State, s.i.toNat + (0xF#4).toNat = 4095) ∧
    ∃ s : State, s.i.toNat + (0xF#4).toNat = 4096 :=
  ⟨⟨{ State.reset with i := 0xFF0#16 }, by decide⟩, ⟨{ State.reset with i := 0xFF1#16 }, by decide⟩⟩

theorem wit_LoadRestoresStoredRegisters : ∃ s t u : State, s.i.toNat + (3#4).toNat < 4096 ∧
    exec (.storeRegs 3#4) s = .next t ∧ u.mem = t.mem ∧ u.i = t.i :=
  ⟨{ State.reset with i := 0x300#16 }, _, _, by decide, rfl, rfl, rfl⟩

/-- N = 0, the last row at 0xFFF and at 0x1000; a pixel the sprite reaches, lit and unlit. -/
theorem wit_DrwInvertsTheSpritePixels : (0#4).toNat = 0 ∧
    (∃ s : State, s.i.toNat + (2#4).toNat = 4096) ∧ (∃ s : State, s.i.toNat + (2#4).toNat = 4097) ∧
    SpriteHits (glyphState []) 0 0 5 3 4 ∧ (glyphState []).screen.pixel 3 4 = false ∧
    ({ glyphState [] with screen := Screen.blank.flip 3 4 } : State).screen.pixel 3 4 = true :=
  ⟨rfl, ⟨{ State.reset with i := 0xFFE#16 }, by decide⟩, ⟨{ State.reset with i := 0xFFF#16 }, by decide⟩,
    ⟨4, 3, by decide, by decide, by decide, by decide, by decide⟩, by decide, by decide⟩

theorem wit_DrawingTwiceRestores : ∃ t, (0#4) ≠ 0xF#4 ∧ (1#4) ≠ 0xF#4 ∧
    ((5#4).toNat = 0 ∨ (glyphState []).i.toNat + (5#4).toNat ≤ 4096) ∧
    exec (.drw 0#4 1#4 5#4) (glyphState []) = .next t :=
  ⟨_, by decide, by decide, .inr (by decide), rfl⟩

/-- VX = 15 with a key pressed or not, VX = 16. -/
theorem wit_KeySkipsOrFault : ((regs [(0, 15)]).getV 0).toNat = (0xF#4).toNat ∧
    15 < ((regs [(0, 16)]).getV 0).toNat ∧ (State.reset.setKeyFlag 0xF true).getKey 0xF = true ∧
    State.reset.getKey 0xF = false := by decide

/-- Key 0 and key F pressed, and none. -/
theorem wit_WaitForKeyPolls : let s := (State.reset.setKeyFlag 0xF true).setKeyFlag 0 true
    (s.getKey 0 = true ∧ ∀ j : Nibble, j.toNat < (0#4).toNat → s.getKey j = false) ∧
    ((State.reset.setKeyFlag 0xF true).getKey 0xF = true ∧
      ∀ j : Nibble, j.toNat < (0xF#4).toNat → (State.reset.setKeyFlag 0xF true).getKey j = false) ∧
    ∀ k : Nibble, State.reset.getKey k = false := by decide

/-- The frames' premise for one instruction of each statement, a completing cycle each. -/
theorem wit_Frames :
    (∃ t, exec (.call 0x210#12) { State.reset with sp := 15 } = .next t ∧ t.sp = 16) ∧
    (∃ t, exec .ret { State.reset with sp := 1 } = .next t ∧ t.sp = 0) ∧
    (∃ t, exec (.addReg 0xF#4 0xF#4) State.reset = .next t) ∧
    (∃ t, exec (.storeRegs 0xF#4) { State.reset with i := 0xFF0#16 } = .next t ∧ t.status = .running) ∧
    (∃ t, exec (.ldBVx 0#4) { State.reset with i := 0xFFD#16 } = .next t ∧ t.status = .running) ∧
    (∃ t, exec (.loadRegs 0xF#4) { State.reset with i := 0xFF0#16 } = .next t ∧ t.status = .running) ∧
    (∃ t, exec (.drw 0#4 0#4 5#4) (glyphState []) = .next t ∧ t.status = .running) ∧
    ∃ t, exec (.skp 0#4) State.reset = .next t ∧ t.status = .running :=
  ⟨⟨_, rfl, rfl⟩, ⟨_, rfl, rfl⟩, ⟨_, rfl⟩, ⟨_, rfl, rfl⟩, ⟨_, rfl, rfl⟩, ⟨_, rfl, rfl⟩, ⟨_, rfl, rfl⟩,
    ⟨_, rfl, rfl⟩⟩

end Sys2Proof.Tests
end

/-! What one instruction can do, said once for all 35 (spec/40_cycle.md R54, R55, R58): every
cycle answers a next state, and that state has one of a few shapes over the state before it. -/

namespace Sys2Proof.Machine

/-- The shapes a cycle of `i` from `s` can end in. A shape that only some instructions have names
them; a fault is one R100 gives `i`, with a record R99 allows. -/
inductive Effect (s : State) (i : Instr) : State → Prop where
  /-- the cycle faulted (R55) -/
  | fault (f : Fault) (may : MayRaise i f) (legal : FaultRecordLegal f) : Effect s i (takeFault f s)
  /-- FX0A found no key pressed (R98) -/
  | wait (x : Nibble) (named : i = .ldVxK x) : Effect s i s
  /-- only PC moved: past the instruction, past the next one too, or to a computed address
  (R59, R62, R68) -/
  | move (w : Word) (target : w = s.pc + 2#16 ∨ w = s.pc + 2#16 + 2#16 ∨ w.toNat < 0x10FF) :
      Effect s i ((fetched s).setPc w)
  /-- V registers were written -/
  | regs (vs : Vector Byte 16) : Effect s i { fetched s with v := vs }
  /-- I was written (R83, R84, R85) -/
  | index (w : Word) (named : (∃ a, i = .ldI a) ∨ (∃ x, i = .addIVx x) ∨ ∃ x, i = .ldFVx x) :
      Effect s i ((fetched s).setI w)
  /-- a return address was pushed (R63) -/
  | push (a : Imm12) (named : i = .call a) (room : s.sp.val < 16) :
      Effect s i { s with
        stack := s.stack.set s.sp.val (s.pc + 2#16) room
        sp := ⟨s.sp.val + 1, by omega⟩
        pc := addrOf a }
  /-- a return address was popped (R61) -/
  | pop (named : i = .ret) (used : 0 < s.sp.val) :
      Effect s i { s with
        sp := ⟨s.sp.val - 1, by omega⟩
        pc := s.getStack ⟨s.sp.val - 1, by omega⟩ }
  /-- DT was written (R96) -/
  | delay (x : Nibble) (b : Byte) (named : i = .ldDTVx x) : Effect s i ((fetched s).setDt b)
  /-- ST was written (R97) -/
  | sound (x : Nibble) (b : Byte) (named : i = .ldSTVx x) : Effect s i ((fetched s).setSt b)
  /-- the framebuffer was written, and VF perhaps (R91, R92) -/
  | screen (vs : Vector Byte 16) (scr : Screen) (named : i = .cls ∨ ∃ x y n, i = .drw x y n) :
      Effect s i { fetched s with v := vs, screen := scr }
  /-- bytes were stored where memory exists (R86, R87) -/
  | store (bs : List Byte) (named : (∃ x, i = .ldBVx x) ∨ ∃ x, i = .storeRegs x)
      (inside : s.i.toNat + bs.length ≤ 4096) :
      Effect s i { fetched s with mem := copyBytes s.mem s.i.toNat bs }
  /-- a random byte was drawn into a register (R82) -/
  | draw (x : Nibble) (nn b : Byte) (named : i = .rnd x nn) :
      Effect s i ((drawByte (fetched s)).2.setV x b)

/-- A skip is a move of PC (R59). -/
theorem Effect.skip (s : State) (i : Instr) (c : Bool) : Effect s i (skipIf c (fetched s)) := by
  rw [skipIf_eq]
  exact .move _ (by cases c <;> simp)

/-- An access outside memory is reported with an address that does not exist (R99, R101). -/
theorem Effect.outside {s : State} {i : Instr}
    (may : MayRaise i (.memoryOutOfBounds (firstOutside s.i.toNat))) :
    Effect s i (takeFault (.memoryOutOfBounds (firstOutside s.i.toNat)) s) :=
  .fault _ may (le_firstOutside _)

theorem toNat_addrOf_lt (nnn : Imm12) : (addrOf nnn).toNat < 0x1000 := by
  have := nnn.isLt
  simp only [addrOf, BitVec.toNat_setWidth]
  omega

/-- The sum of BNNN is at most 0x10FE (R68). -/
theorem toNat_addrOf_add_wideOf_lt (nnn : Imm12) (b : Byte) :
    (addrOf nnn + wideOf b).toNat < 0x10FF := by
  have := nnn.isLt
  have := b.isLt
  simp only [addrOf, wideOf, BitVec.toNat_add, BitVec.toNat_setWidth]
  omega

/-- Every instruction, from every state, answers a next state of one of the shapes of `Effect`. -/
theorem exists_exec_effect (i : Instr) (s : State) : ∃ t, exec i s = .next t ∧ Effect s i t := by
  cases i with
  | nop => exact ⟨_, exec_nop s, .move _ (.inl rfl)⟩
  | cls => exact ⟨_, exec_cls s, .screen _ _ (.inl rfl)⟩
  | ret =>
    by_cases h : 0 < s.sp.val
    · exact ⟨_, exec_ret_pos h, .pop rfl h⟩
    · exact ⟨_, exec_ret_empty (by omega), .fault _ trivial trivial⟩
  | jp nnn =>
    exact ⟨_, exec_jp nnn s, .move _ (.inr (.inr (Nat.lt_trans (toNat_addrOf_lt nnn) (by decide))))⟩
  | call nnn =>
    by_cases h : s.sp.val < 16
    · exact ⟨_, exec_call_lt nnn h, .push nnn rfl h⟩
    · exact ⟨_, exec_call_full nnn (by omega), .fault _ trivial trivial⟩
  | seByte x nn => exact ⟨_, exec_seByte x nn s, .skip _ _ _⟩
  | sneByte x nn => exact ⟨_, exec_sneByte x nn s, .skip _ _ _⟩
  | seReg x y => exact ⟨_, exec_seReg x y s, .skip _ _ _⟩
  | ldByte x nn => exact ⟨_, exec_ldByte x nn s, .regs _⟩
  | addByte x nn => exact ⟨_, exec_addByte x nn s, .regs _⟩
  | ldReg x y => exact ⟨_, exec_ldReg x y s, .regs _⟩
  | orReg x y => exact ⟨_, exec_orReg x y s, .regs _⟩
  | andReg x y => exact ⟨_, exec_andReg x y s, .regs _⟩
  | xorReg x y => exact ⟨_, exec_xorReg x y s, .regs _⟩
  | addReg x y => exact ⟨_, exec_addReg x y s, .regs _⟩
  | subReg x y => exact ⟨_, exec_subReg x y s, .regs _⟩
  | shr x y => exact ⟨_, exec_shr x y s, .regs _⟩
  | subnReg x y => exact ⟨_, exec_subnReg x y s, .regs _⟩
  | shl x y => exact ⟨_, exec_shl x y s, .regs _⟩
  | sneReg x y => exact ⟨_, exec_sneReg x y s, .skip _ _ _⟩
  | ldI nnn => exact ⟨_, exec_ldI nnn s, .index _ (.inl ⟨nnn, rfl⟩)⟩
  | jpV0 nnn =>
    exact ⟨_, exec_jpV0 nnn s, .move _ (.inr (.inr (toNat_addrOf_add_wideOf_lt nnn _)))⟩
  | rnd x nn => exact ⟨_, exec_rnd x nn s, .draw x nn _ rfl⟩
  | drw x y n =>
    rw [exec_drw]
    split
    · exact ⟨_, rfl, .screen _ _ (.inr ⟨x, y, n, rfl⟩)⟩
    · exact ⟨_, rfl, .outside trivial⟩
  | skp x =>
    by_cases h : (s.getV x).toNat ≤ 15
    · exact ⟨_, exec_skp_of_le h, .skip _ _ _⟩
    · exact ⟨_, exec_skp_of_gt (by omega), .fault _ trivial (Nat.lt_of_not_le h)⟩
  | sknp x =>
    by_cases h : (s.getV x).toNat ≤ 15
    · exact ⟨_, exec_sknp_of_le h, .skip _ _ _⟩
    · exact ⟨_, exec_sknp_of_gt (by omega), .fault _ trivial (Nat.lt_of_not_le h)⟩
  | ldVxDT x => exact ⟨_, exec_ldVxDT x s, .regs _⟩
  | ldVxK x =>
    cases h : leastPressed s with
    | none => exact ⟨_, exec_ldVxK_none h, .wait x rfl⟩
    | some k => exact ⟨_, exec_ldVxK_some h, .regs _⟩
  | ldDTVx x => exact ⟨_, exec_ldDTVx x s, .delay x _ rfl⟩
  | ldSTVx x => exact ⟨_, exec_ldSTVx x s, .sound x _ rfl⟩
  | addIVx x =>
    rw [exec_addIVx]
    split
    next h => exact ⟨_, rfl, .fault _ trivial h⟩
    next => exact ⟨_, rfl, .index _ (.inr (.inl ⟨x, rfl⟩))⟩
  | ldFVx x => exact ⟨_, exec_ldFVx x s, .index _ (.inr (.inr ⟨x, rfl⟩))⟩
  | ldBVx x =>
    rw [exec_ldBVx]
    split
    next h => exact ⟨_, rfl, .store _ (.inl ⟨x, rfl⟩) h⟩
    next => exact ⟨_, rfl, .outside trivial⟩
  | storeRegs x =>
    rw [exec_storeRegs]
    split
    next h => exact ⟨_, rfl, .store _ (.inr ⟨x, rfl⟩) (by rwa [regsUpTo_length])⟩
    next => exact ⟨_, rfl, .outside trivial⟩
  | loadRegs x =>
    rw [exec_loadRegs]
    split
    · refine ⟨_, rfl, ?_⟩
      rw [setRegs_frame]
      exact .regs _
    · exact ⟨_, rfl, .outside trivial⟩

/-- The inversion of `exec`: a next state it answers has one of the shapes of `Effect`. -/
theorem exec_effect {i : Instr} {s t : State} (h : exec i s = .next t) : Effect s i t := by
  obtain ⟨u, hu, he⟩ := exists_exec_effect i s
  rw [hu] at h
  cases h
  exact he

end Sys2Proof.Machine

/-! The invariant of every run (`RunInv`) is kept by a fault, by every instruction and by every Step. -/

namespace Sys2Proof.Machine

/-- A fault keeps the invariant when its record is one R99 allows (R55). -/
theorem RunInv.takeFault {s : State} (h : RunInv s) {f : Fault} (hf : FaultRecordLegal f) :
    RunInv (takeFault f s) := by
  obtain ⟨hmem, hpc, hstack, -⟩ := h
  refine ⟨hmem, hpc, hstack, fun g hg => ?_⟩
  cases hg
  exact hf

/-- A push keeps the bound on the stack's entries when the pushed word meets it (R63). -/
theorem getElem_set_stack_le {stack : Vector Word 16} {n : Nat} (hn : n < 16) {w : Word}
    (h : ∀ k : Fin 16, stack[k.val].toNat ≤ 0x1000) (hw : w.toNat ≤ 0x1000) (k : Fin 16) :
    (stack.set n w hn)[k.val].toNat ≤ 0x1000 := by
  rw [Vector.getElem_set]
  split
  · exact hw
  · exact h k

/-- An instruction that could be fetched keeps the invariant. PC is at most 0xFFE before it, so at most
0x1002 after a skip; a return goes to an entry of the stack. -/
theorem Effect.runInv {s t : State} {i : Instr} (he : Effect s i t) (h : RunInv s)
    (hp : s.pc.toNat ≤ 0xFFE) : RunInv t := by
  have ⟨hmem, _, hstack, hstatus⟩ := h
  have hnext : (s.pc + 2#16).toNat ≤ 0x1000 := by bv_omega
  have hnextPc : (s.pc + 2#16).toNat < 0x10FF := by omega
  cases he with
  | fault f _ legal => exact h.takeFault legal
  | wait => exact h
  | move w target =>
    refine ⟨hmem, ?_, hstack, hstatus⟩
    rcases target with rfl | rfl | hw
    · exact hnextPc
    · show (s.pc + 2#16 + 2#16).toNat < 0x10FF
      bv_omega
    · exact hw
  | regs | index | delay | sound | screen | draw => exact ⟨hmem, hnextPc, hstack, hstatus⟩
  | push a _ room =>
    exact ⟨hmem, Nat.lt_trans (toNat_addrOf_lt a) (by decide),
      getElem_set_stack_le room hstack hnext, hstatus⟩
  | pop _ used => exact ⟨hmem, Nat.lt_of_le_of_lt (hstack _) (by decide), hstack, hstatus⟩
  | store bs _ inside => exact ⟨copyBytes_wf hmem inside, hnextPc, hstack, hstatus⟩

/-- Settles O19: a Step faults in the fetch or the decode, with a legal record, or executes an
instruction that was fetched from at most 0xFFE. -/
theorem stepKeepsTheInvariant : Obligations.StepKeepsTheInvariant := by
  intro s t h hstep
  obtain ⟨-, ⟨f, hf, rfl⟩ | ⟨op, -, hd, rfl⟩ | ⟨op, i, hf, -, hexec⟩⟩ := step_cases hstep
  · obtain ⟨-, rfl⟩ := fetch_error hf
    exact h.takeFault (le_firstOutside _)
  · exact h.takeFault hd
  · exact (exec_effect hexec).runInv h (fetch_eq_ok.mp hf).1

end Sys2Proof.Machine

/-! What may write what (spec/10_state.md): the key flags, I, the stack, the timers, the framebuffer,
memory, and the flag values VF may hold. -/

namespace Sys2Proof.Machine

/-! ### The key flags (R19) -/

/-- No instruction writes a key flag. -/
theorem Effect.key {s t : State} {i : Instr} (he : Effect s i t) : t.key = s.key := by
  cases he <;> rfl

/-- No Step writes a key flag. -/
theorem step_key {s t : State} (h : step s = .next t) : t.key = s.key := by
  obtain ⟨-, ⟨f, -, rfl⟩ | ⟨op, -, -, rfl⟩ | ⟨op, i, -, -, hexec⟩⟩ := step_cases h
  · rfl
  · rfl
  · exact (exec_effect hexec).key

/-- The Step event leaves the state its step answers, or the state as it was. -/
theorem stepState_cases (s : State) : stepState s = s ∨ step s = .next (stepState s) := by
  rw [stepState]
  split
  · exact .inr ‹_›
  · exact .inl rfl
  · exact .inl rfl

theorem stepState_key (s : State) : (stepState s).key = s.key := by
  rcases stepState_cases s with h | h
  · rw [h]
  · exact step_key h

theorem load_key (bytes : List Byte) (s : State) : (load bytes s).1.key = s.key := by
  rcases Nat.lt_or_ge 3584 bytes.length with h | h
  · rw [load_of_gt s h]
    cases hs : s.status <;> rfl
  · rw [load_of_le s h]

theorem tick_key (s : State) : (tick s).key = s.key := by
  rw [tick]
  split <;> rfl

/-- SetKey changes no part but the flag it names (R109). -/
theorem setKey_frame (k : Nibble) (b : Bool) (s : State) :
    FrameExcept (fun p => p = .key k) s (setKey k b s) := by
  intro p hp
  cases p with
  | key j =>
    have hj : j ≠ k := fun h => hp (h ▸ rfl)
    show (s.setKeyFlag k b).getKey j = s.getKey j
    rw [getKey_setKeyFlag, if_neg hj]
  | _ => rfl

theorem reset_getKey (s : State) (k : Nibble) : (resetCore s).getKey k = false :=
  Vector.getElem_replicate k.isLt

/-- Settles O14: SetKey by the read after its write and its frame; the instructions by their effects,
the other events each by its own lemma. -/
theorem keysAreWrittenBySetKeyOnly : Obligations.KeysAreWrittenBySetKeyOnly := by
  refine ⟨fun k j b s => ⟨getKey_setKeyFlag s k j b, setKey_frame k b s⟩,
    fun i s t h => (exec_effect h).key, fun e s hreset hset => ?_, reset_getKey⟩
  cases e with
  | reset => exact absurd rfl hreset
  | load bytes => exact load_key bytes s
  | setKey k b => exact absurd rfl (hset k b)
  | step => exact stepState_key s
  | tick => exact tick_key s
  | observe => rfl

/-! ### I, the stack, the timers, the framebuffer, memory (R14, R16–R18, R20, R38) -/

/-- Settles O15: each shape of an effect writes one of these parts only, and names its instructions. -/
theorem onlyTheNamedInstructionsWrite : Obligations.OnlyTheNamedInstructionsWrite := by
  intro i s t h
  cases exec_effect h with
  | fault | wait | move | regs => simp
  | index w named => simp [named]
  | push a named => simp [named]
  | pop named => simp [named]
  | delay x b named => simp [named]
  | sound x b named => simp [named]
  | screen vs scr named => simp [named]
  | store bs named => simp [named]
  | draw x nn b named => simp [named]

/-! ### The flag register (R13) -/

theorem flagByte_eq (c : Bool) : flagByte c = 0#8 ∨ flagByte c = 1#8 := by
  cases c
  · exact .inl rfl
  · exact .inr rfl

/-- A completed flag writer leaves VF at its flag, whatever its destination (R57, D10). -/
theorem getV_vf_setFlag_flagByte (s : State) (c : Bool) :
    (setFlag s (flagByte c)).getV vf = 0#8 ∨ (setFlag s (flagByte c)).getV vf = 1#8 := by
  rw [getV_setFlag, if_pos rfl]
  exact flagByte_eq c

/-- A flag writer that completes writes a flag last; DXYN may fault instead (R13, R57). -/
theorem exec_flagWriter {x y n : Nibble} {i : Instr} {s t : State}
    (hi : i ∈ [.addReg x y, .subReg x y, .shr x y, .subnReg x y, .shl x y, .drw x y n])
    (h : exec i s = .next t) :
    (∃ u c, t = setFlag u (flagByte c)) ∨ ∃ f, t = takeFault f s := by
  simp only [List.mem_cons, List.not_mem_nil, or_false] at hi
  rcases hi with rfl | rfl | rfl | rfl | rfl | rfl
  · rw [exec_addReg] at h; cases h; exact .inl ⟨_, _, rfl⟩
  · rw [exec_subReg] at h; cases h; exact .inl ⟨_, _, rfl⟩
  · rw [exec_shr] at h; cases h; exact .inl ⟨_, _, rfl⟩
  · rw [exec_subnReg] at h; cases h; exact .inl ⟨_, _, rfl⟩
  · rw [exec_shl] at h; cases h; exact .inl ⟨_, _, rfl⟩
  · rw [exec_drw] at h
    split at h
    · cases h; exact .inl ⟨_, _, rfl⟩
    · cases h; exact .inr ⟨_, rfl⟩

/-- Settles O16: the last write of a flag writer is a flag into VF. -/
theorem flagWritersLeaveZeroOrOne : Obligations.FlagWritersLeaveZeroOrOne := by
  intro x y n i s t hi h
  rcases exec_flagWriter hi h with ⟨u, c, rfl⟩ | ⟨f, rfl⟩
  · exact (getV_vf_setFlag_flagByte u c).imp_right .inl
  · exact .inr (.inr ⟨f, rfl⟩)

end Sys2Proof.Machine

/-! Nothing a Step does depends on ST (spec/10_state.md R18): two runs side by side, from `s` and from
`s.setSt b`. -/

namespace Sys2Proof.Machine

/-- Both outcomes are next states, and these differ in ST at most. -/
def SameButSt (o o' : Host.Outcome State Fault Refusal) : Prop :=
  ∃ t u, o = .next t ∧ o' = .next u ∧ u.setSt t.st = t

theorem SameButSt.next {t u : State} (h : u.setSt t.st = t) : SameButSt (.next t) (.next u) :=
  ⟨t, u, rfl, rfl, h⟩

/-- Two runs that branch on the same condition differ in ST at most when their branches do. -/
theorem SameButSt.ite {c : Prop} [Decidable c] {o o' p p' : Host.Outcome State Fault Refusal}
    (ho : SameButSt o o') (hp : SameButSt p p') :
    SameButSt (if c then o else p) (if c then o' else p') := by
  split
  · exact ho
  · exact hp

theorem SameButSt.skip (c : Bool) (s : State) (b : Byte) :
    SameButSt (.next (skipIf c (fetched s))) (.next (skipIf c (fetched (s.setSt b)))) := by
  rw [skipIf_eq, skipIf_eq]
  exact .next rfl

/-- Two runs that take the same fault differ in ST at most (R55). -/
theorem SameButSt.fault (f : Fault) (s : State) (b : Byte) :
    SameButSt (.next (takeFault f s)) (.next (takeFault f (s.setSt b))) := .next rfl

/-- Loading registers neither reads nor writes ST. -/
theorem setRegs_setSt (bs : List Byte) (s : State) (k : Nat) (b : Byte) :
    setRegs (s.setSt b) k bs = (setRegs s k bs).setSt b := by
  induction bs generalizing s k with
  | nil => rfl
  | cons c bs ih => exact ih (s.setV (BitVec.ofNat 4 k) c) (k + 1)

theorem setRegs_st (bs : List Byte) (s : State) (k : Nat) : (setRegs s k bs).st = s.st := by
  rw [setRegs_frame]

theorem SameButSt.setRegs (bs : List Byte) (s : State) (b : Byte) :
    SameButSt (.next (setRegs (fetched s) 0 bs)) (.next (setRegs (fetched (s.setSt b)) 0 bs)) := by
  refine .next ?_
  have hst : fetched (s.setSt b) = (fetched s).setSt b := rfl
  rw [hst, setRegs_setSt, setRegs_frame bs (fetched s)]
  rfl

/-- One instruction run from two states that differ in ST alone takes the same branch and writes the
same. Each instruction with a branch is a case of its own; the cycles of the others have one closed form,
in which ST stands alone. -/
theorem exec_sameButSt (i : Instr) (s : State) (b : Byte) :
    SameButSt (exec i s) (exec i (s.setSt b)) := by
  cases i with
  | ret =>
    by_cases h : 0 < s.sp.val
    · rw [exec_ret_pos h, exec_ret_pos (s := s.setSt b) h]
      exact .next rfl
    · have h : s.sp.val = 0 := by omega
      rw [exec_ret_empty h, exec_ret_empty (s := s.setSt b) h]
      exact .fault _ s b
  | call nnn =>
    by_cases h : s.sp.val < 16
    · rw [exec_call_lt nnn h, exec_call_lt (s := s.setSt b) nnn h]
      exact .next rfl
    · have h : s.sp.val = 16 := by omega
      rw [exec_call_full nnn h, exec_call_full (s := s.setSt b) nnn h]
      exact .fault _ s b
  | seByte x nn => exact .skip _ s b
  | sneByte x nn => exact .skip _ s b
  | seReg x y => exact .skip _ s b
  | sneReg x y => exact .skip _ s b
  | skp x =>
    by_cases h : (s.getV x).toNat ≤ 15
    · rw [exec_skp_of_le h, exec_skp_of_le (s := s.setSt b) h]
      exact .skip _ s b
    · have h : 15 < (s.getV x).toNat := by omega
      rw [exec_skp_of_gt h, exec_skp_of_gt (s := s.setSt b) h]
      exact .fault _ s b
  | sknp x =>
    by_cases h : (s.getV x).toNat ≤ 15
    · rw [exec_sknp_of_le h, exec_sknp_of_le (s := s.setSt b) h]
      exact .skip _ s b
    · have h : 15 < (s.getV x).toNat := by omega
      rw [exec_sknp_of_gt h, exec_sknp_of_gt (s := s.setSt b) h]
      exact .fault _ s b
  | ldVxK x =>
    cases h : leastPressed s with
    | none =>
      rw [exec_ldVxK_none h, exec_ldVxK_none (s := s.setSt b) h]
      exact .next rfl
    | some k =>
      rw [exec_ldVxK_some h, exec_ldVxK_some (s := s.setSt b) h]
      exact .next rfl
  | drw x y n =>
    rw [exec_drw, exec_drw]
    exact .ite (.next rfl) (.fault _ s b)
  | addIVx x =>
    rw [exec_addIVx, exec_addIVx]
    exact .ite (.fault _ s b) (.next rfl)
  | ldBVx x =>
    rw [exec_ldBVx, exec_ldBVx]
    exact .ite (.next rfl) (.fault _ s b)
  | storeRegs x =>
    rw [exec_storeRegs, exec_storeRegs]
    exact .ite (.next rfl) (.fault _ s b)
  | loadRegs x =>
    rw [exec_loadRegs, exec_loadRegs]
    exact .ite (.setRegs _ s b) (.fault _ s b)
  | _ => exact .next rfl

theorem waits_setSt (s : State) (b : Byte) : waits (s.setSt b) = waits s := rfl

/-- A running core's Step, from two states that differ in ST alone. -/
theorem step_sameButSt {s : State} (b : Byte) (hs : s.status = .running) :
    SameButSt (step s) (step (s.setSt b)) := by
  have hs' : (s.setSt b).status = .running := hs
  cases hf : fetch s with
  | error f =>
    rw [step_of_fetch_error hs hf, step_of_fetch_error hs' hf]
    exact .fault _ s b
  | ok op =>
    cases hd : decode op with
    | error e =>
      rw [step_of_decode_error hs hf hd, step_of_decode_error hs' hf hd]
      exact .fault _ s b
    | ok i =>
      rw [step_of_decode_ok hs hf hd, step_of_decode_ok hs' hf hd]
      exact exec_sameButSt i s b

/-- What a Step returns is read off the status before and after it, and whether it waits. -/
theorem stepResult_congr {s s' t t' : State} (h : step s = .next t) (h' : step s' = .next t')
    (hbefore : s'.status = s.status) (hafter : t'.status = t.status) (hwaits : waits s' = waits s) :
    stepResult s' = stepResult s := by
  simp only [stepResult, stepFault, stepState, h, h', hbefore, hafter, hwaits]

/-- Settles O17: the two Steps answer states that differ in ST at most, hence the same result. -/
theorem soundTimerIsNeverRead : Obligations.SoundTimerIsNeverRead := by
  intro s t b h
  obtain ⟨hs, -⟩ := step_cases h
  obtain ⟨t', u, ht, hu, heq⟩ := step_sameButSt b hs
  rw [h] at ht
  cases ht
  have hstatus : u.status = t.status := congrArg (·.status) heq
  exact ⟨u, hu, heq, stepResult_congr h hu rfl hstatus (waits_setSt s b)⟩

end Sys2Proof.Machine

/-! Memory (spec/20_memory.md): what one write leaves unchanged (R26), and where an FX55 puts the
registers (R87). -/

namespace Sys2Proof.Machine

/-- A write changes the byte at its address alone (R26). -/
theorem write_frame (s : State) (a : Nat) (v : Byte) :
    FrameExcept (fun p => p = .mem a) s { s with mem := s.mem.write a v } := by
  intro p hp
  cases p with
  | mem b =>
    have hb : b ≠ a := fun h => hp (congrArg Part.mem h)
    exact (Memory.read_write s.mem a v b).trans (if_neg hb)
  | _ => rfl

/-- Settles O28: below 4096 the read after the write, its frame and the canonical form; from 4096 up the
two faults. -/
theorem memoryReadsBackWrites : Obligations.MemoryReadsBackWrites := by
  refine fun s a v => ⟨fun ha => ?_, fun ha => ⟨memWrite_of_ge ha, memRead_of_ge ha⟩⟩
  have hread : (s.mem.write a v).read a = v := (Memory.read_write s.mem a v a).trans (if_pos rfl)
  exact ⟨_, memWrite_of_lt ha, hread, write_frame s a v, fun hwf => Memory.write_wf v hwf ha,
    memRead_of_lt ha⟩

/-- Register `k` is read back at offset `k` of the bytes FX55 copies (R87). -/
theorem read_copyBytes_regsUpTo (s : State) (m : Memory) (a : Nat) {x : Nibble} {k : Nat}
    (hk : k ≤ x.toNat) :
    (copyBytes m a (regsUpTo s x)).read (a + k) = s.getV (BitVec.ofNat 4 k) := by
  have hin : a ≤ a + k ∧ a + k < a + (regsUpTo s x).length := by
    rw [regsUpTo_length]
    omega
  rw [read_copyBytes, if_pos hin, Nat.add_sub_cancel_left, regsUpTo_getD s x hk]

/-- Settles O29: PC after the FX55 is I, where V0 and V1 were stored. -/
theorem storesAreSeenByTheNextFetch : Obligations.StoresAreSeenByTheNextFetch := by
  intro x s hx hi htop
  have hpc : s.pc + 2#16 = s.i := by bv_omega
  refine ⟨_, (exec_storeRegs x s).trans (if_pos (by omega)), fetch_eq_ok.mpr ?_⟩
  simp only [fetched_pc, hpc]
  have hV0 : (copyBytes s.mem s.i.toNat (regsUpTo s x)).read s.i.toNat = s.getV 0#4 :=
    read_copyBytes_regsUpTo s s.mem s.i.toNat (Nat.zero_le _)
  have hV1 : (copyBytes s.mem s.i.toNat (regsUpTo s x)).read (s.i.toNat + 1) = s.getV 1#4 :=
    read_copyBytes_regsUpTo s s.mem s.i.toNat hx
  rw [hV0, hV1]
  exact ⟨by omega, rfl⟩

end Sys2Proof.Machine

/-! Decoding and encoding are inverse (spec/30_encoding.md R40, R42–R44): an instruction's word decodes
to it, and the decoder's answer to any word is the instruction of that word or a rejection R43 lists. -/

namespace Sys2Proof.Machine

/-! ### An instruction's word decodes to it -/

/-- Decoding inverts the encoder. One case per form of R40 and decoder of its digit: the decoder tests the
very digits the form fixes, and reads each operand from the field the form put it in. -/
theorem decode_encode (i : Instr) : decode (encode i) = .ok i := by
  cases i with
  | nop | cls | ret => rfl
  | jp | call | ldI | jpV0 => simp [encode, decode]
  | seByte | sneByte | ldByte | addByte | rnd => simp [encode, decode]
  | drw => simp [encode, decode]
  | seReg => simp [encode, decode, decode5]
  | ldReg | orReg | andReg | xorReg | addReg | subReg | shr | subnReg | shl =>
    simp [encode, decode, decode8]
  | sneReg => simp [encode, decode, decode9]
  | skp | sknp => simp [encode, decode, decodeE]
  | ldVxDT | ldVxK | ldDTVx | ldSTVx | addIVx | ldFVx | ldBVx | storeRegs | loadRegs =>
    simp [encode, decode, decodeF]

theorem decode_of_encode_eq {op : Word} {i : Instr} (h : encode i = op) : decode op = .ok i :=
  h ▸ decode_encode i

/-- Settles O3: decoding inverts the encoder, and the table's reading is the decoder's. -/
theorem decodeOfEncode : Obligations.DecodeOfEncode := by
  intro i
  refine ⟨decode_encode i, ?_⟩
  rw [decodeTableWord_eq, decode_encode]

/-! ### The fixed bits of a row (opcode_table.json) -/

theorem nibble_and_F (d : Nibble) : d &&& 0xF#4 = d := BitVec.and_allOnes

theorem byte_and_FF (b : Byte) : b &&& 0xFF#8 = b := BitVec.and_allOnes

theorem formNNN_and (d d' : Nibble) (a a' : Imm12) :
    formNNN d a &&& formNNN d' a' = formNNN (d &&& d') (a &&& a') :=
  BitVec.and_append

theorem formXNN_and (d d' x x' : Nibble) (b b' : Byte) :
    formXNN d x b &&& formXNN d' x' b' = formXNN (d &&& d') (x &&& x') (b &&& b') :=
  BitVec.and_append.trans (congrArg (· ++ (b &&& b')) BitVec.and_append)

theorem formXYN_and (d d' x x' y y' n n' : Nibble) :
    formXYN d x y n &&& formXYN d' x' y' n' =
      formXYN (d &&& d') (x &&& x') (y &&& y') (n &&& n') :=
  BitVec.and_append.trans (congrArg (· ++ (n &&& n'))
    (BitVec.and_append.trans (congrArg (· ++ (y &&& y')) BitVec.and_append)))

/-! The masks of a row that fixes digit1, or digit1 and NN, or digit1 and N. -/

theorem formNNN_and_digit (d : Nibble) (a : Imm12) : formNNN d a &&& 0xF000#16 = formNNN d 0#12 := by
  have h := formNNN_and d 0xF#4 a 0#12
  rwa [nibble_and_F, BitVec.and_zero] at h

theorem formXNN_and_digit (d x : Nibble) (b : Byte) :
    formXNN d x b &&& 0xF000#16 = formXNN d 0#4 0#8 := by
  have h := formXNN_and d 0xF#4 x 0#4 b 0#8
  rwa [nibble_and_F, BitVec.and_zero, BitVec.and_zero] at h

theorem formXNN_and_digit_byte (d x : Nibble) (b : Byte) :
    formXNN d x b &&& 0xF0FF#16 = formXNN d 0#4 b := by
  have h := formXNN_and d 0xF#4 x 0#4 b 0xFF#8
  rwa [nibble_and_F, BitVec.and_zero, byte_and_FF] at h

theorem formXYN_and_digit (d x y n : Nibble) :
    formXYN d x y n &&& 0xF000#16 = formXYN d 0#4 0#4 0#4 := by
  have h := formXYN_and d 0xF#4 x 0#4 y 0#4 n 0#4
  rwa [nibble_and_F, BitVec.and_zero, BitVec.and_zero, BitVec.and_zero] at h

theorem formXYN_and_digit_count (d x y n : Nibble) :
    formXYN d x y n &&& 0xF00F#16 = formXYN d 0#4 0#4 n := by
  have h := formXYN_and d 0xF#4 x 0#4 y 0#4 n 0xF#4
  rwa [nibble_and_F, BitVec.and_zero, BitVec.and_zero, nibble_and_F] at h

/-- An instruction's word carries its row's fixed bits. -/
theorem encode_and_rowMask (i : Instr) : encode i &&& rowMask i = rowMatch i := by
  cases i with
  | nop | cls | ret => rfl
  | jp | call | ldI | jpV0 => exact formNNN_and_digit _ _
  | seByte | sneByte | ldByte | addByte | rnd => exact formXNN_and_digit _ _ _
  | drw => exact formXYN_and_digit _ _ _ _
  | seReg | sneReg | ldReg | orReg | andReg | xorReg | addReg | subReg | shr | subnReg | shl =>
    exact formXYN_and_digit_count _ _ _ _
  | skp | sknp | ldVxDT | ldVxK | ldDTVx | ldSTVx | addIVx | ldFVx | ldBVx | storeRegs | loadRegs =>
    exact formXNN_and_digit_byte _ _ _

/-! ### The decoder's answer to any word (R42, R43) -/

theorem digit1_eq_iff {op : Word} {d : Nibble} : digit1 op = d ↔ op.toNat / 4096 = d.toNat := by
  rw [← toNat_digit1, BitVec.toNat_inj]

theorem fieldN_eq_iff {op : Word} {n : Nibble} : fieldN op = n ↔ op.toNat % 16 = n.toNat := by
  rw [← toNat_fieldN, BitVec.toNat_inj]

theorem fieldNN_eq_iff {op : Word} {b : Byte} : fieldNN op = b ↔ op.toNat % 256 = b.toNat := by
  rw [← toNat_fieldNN, BitVec.toNat_inj]

/-- R43's list read by the fields that the decoder tests. -/
theorem invalidWord_iff_fields {op : Word} :
    InvalidWord op ↔
      (digit1 op = 0x0#4 ∧ op ∉ [0x0000#16, 0x00E0#16, 0x00EE#16]) ∨
      (digit1 op = 0x5#4 ∧ fieldN op ≠ 0x0#4) ∨
      (digit1 op = 0x8#4 ∧
        fieldN op ∉ [0x0#4, 0x1#4, 0x2#4, 0x3#4, 0x4#4, 0x5#4, 0x6#4, 0x7#4, 0xE#4]) ∨
      (digit1 op = 0x9#4 ∧ fieldN op ≠ 0x0#4) ∨
      (digit1 op = 0xE#4 ∧ fieldNN op ∉ [0x9E#8, 0xA1#8]) ∨
      (digit1 op = 0xF#4 ∧ fieldNN op ∉
        [0x07#8, 0x0A#8, 0x15#8, 0x18#8, 0x1E#8, 0x29#8, 0x33#8, 0x55#8, 0x65#8]) := by
  simp only [InvalidWord, List.mem_cons, List.not_mem_nil, or_false, ne_eq, digit1_eq_iff,
    fieldN_eq_iff, fieldNN_eq_iff, ← BitVec.toNat_inj (x := op), BitVec.toNat_ofNat, Nat.reducePow,
    Nat.reduceMod]
  refine (or_assoc.symm.trans or_assoc.symm).trans (or_congr ?_ (or_congr_right (or_congr_left ?_)))
  · omega
  · omega

/-- No instruction's word is on R43's list. -/
theorem not_invalidWord_encode (i : Instr) : ¬ InvalidWord (encode i) := by
  rw [invalidWord_iff_fields]
  cases i with
  | nop | cls | ret => decide
  | jp | call | ldI | jpV0 => simp [encode]
  | seByte | sneByte | ldByte | addByte | rnd => simp [encode]
  | drw => simp [encode]
  | seReg | sneReg | ldReg | orReg | andReg | xorReg | addReg | subReg | shr | subnReg | shl =>
    simp [encode]
  | skp | sknp | ldVxDT | ldVxK | ldDTVx | ldSTVx | addIVx | ldFVx | ldBVx | storeRegs | loadRegs =>
    simp [encode]

/-- What the decoder may answer to the word `op`: the instruction `op` is the word of, or a rejection
of a word R43 lists. -/
inductive DecodeAnswer (op : Word) : Except DecodeError Instr → Prop
  | instr (i : Instr) (word : encode i = op) : DecodeAnswer op (.ok i)
  | reject (invalid : InvalidWord op) : DecodeAnswer op (.error (.invalidOpcode op))

theorem DecodeAnswer.ofFormNNN {op : Word} {d : Nibble} {i : Instr} (hd : digit1 op = d)
    (hi : encode i = formNNN d (fieldNNN op)) : DecodeAnswer op (.ok i) :=
  .instr i (by rw [hi, ← hd, formNNN_fields])

theorem DecodeAnswer.ofFormXNN {op : Word} {d : Nibble} {i : Instr} (hd : digit1 op = d)
    (hi : encode i = formXNN d (fieldX op) (fieldNN op)) : DecodeAnswer op (.ok i) :=
  .instr i (by rw [hi, ← hd, formXNN_fields])

theorem DecodeAnswer.ofFormXYN {op : Word} {d : Nibble} {i : Instr} (hd : digit1 op = d)
    (hi : encode i = formXYN d (fieldX op) (fieldY op) (fieldN op)) : DecodeAnswer op (.ok i) :=
  .instr i (by rw [hi, ← hd, formXYN_fields])

/-- A test of the whole word gives a right answer where it succeeds, if what follows it gives one where it
fails. -/
theorem DecodeAnswer.iteWord {op w : Word} {i : Instr} {r : Except DecodeError Instr}
    (hi : encode i = w) (h : op ≠ w → DecodeAnswer op r) :
    DecodeAnswer op (if op = w then .ok i else r) := by
  split
  next hw => exact .instr i (hw ▸ hi)
  next hw => exact h hw

/-- The same for a test of N, below a known digit1. -/
theorem DecodeAnswer.iteN {op : Word} {d n : Nibble} {i : Instr} {r : Except DecodeError Instr}
    (hd : digit1 op = d) (hi : encode i = formXYN d (fieldX op) (fieldY op) n)
    (h : fieldN op ≠ n → DecodeAnswer op r) : DecodeAnswer op (if fieldN op = n then .ok i else r) := by
  split
  next hn => exact .ofFormXYN hd (hn ▸ hi)
  next hn => exact h hn

/-- The same for a test of NN. -/
theorem DecodeAnswer.iteNN {op : Word} {d : Nibble} {b : Byte} {i : Instr} {r : Except DecodeError Instr}
    (hd : digit1 op = d) (hi : encode i = formXNN d (fieldX op) b)
    (h : fieldNN op ≠ b → DecodeAnswer op r) : DecodeAnswer op (if fieldNN op = b then .ok i else r) := by
  split
  next hb => exact .ofFormXNN hd (hb ▸ hi)
  next hb => exact h hb

theorem decode0_answer {op : Word} (hd : digit1 op = 0x0#4) : DecodeAnswer op (decode0 op) := by
  refine .iteWord rfl fun h0 => .iteWord rfl fun h1 => .iteWord rfl fun h2 => ?_
  exact .reject (invalidWord_iff_fields.mpr (by simp [hd, h0, h1, h2]))

theorem decode5_answer {op : Word} (hd : digit1 op = 0x5#4) : DecodeAnswer op (decode5 op) :=
  .iteN hd rfl fun h0 => .reject (invalidWord_iff_fields.mpr (by simp [hd, h0]))

theorem decode8_answer {op : Word} (hd : digit1 op = 0x8#4) : DecodeAnswer op (decode8 op) := by
  refine .iteN hd rfl fun h0 => .iteN hd rfl fun h1 => .iteN hd rfl fun h2 =>
    .iteN hd rfl fun h3 => .iteN hd rfl fun h4 => .iteN hd rfl fun h5 => .iteN hd rfl fun h6 =>
    .iteN hd rfl fun h7 => .iteN hd rfl fun hE => ?_
  exact .reject (invalidWord_iff_fields.mpr (by simp [hd, h0, h1, h2, h3, h4, h5, h6, h7, hE]))

theorem decode9_answer {op : Word} (hd : digit1 op = 0x9#4) : DecodeAnswer op (decode9 op) :=
  .iteN hd rfl fun h0 => .reject (invalidWord_iff_fields.mpr (by simp [hd, h0]))

theorem decodeE_answer {op : Word} (hd : digit1 op = 0xE#4) : DecodeAnswer op (decodeE op) := by
  refine .iteNN hd rfl fun h9E => .iteNN hd rfl fun hA1 => ?_
  exact .reject (invalidWord_iff_fields.mpr (by simp [hd, h9E, hA1]))

theorem decodeF_answer {op : Word} (hd : digit1 op = 0xF#4) : DecodeAnswer op (decodeF op) := by
  refine .iteNN hd rfl fun h07 => .iteNN hd rfl fun h0A => .iteNN hd rfl fun h15 =>
    .iteNN hd rfl fun h18 => .iteNN hd rfl fun h1E => .iteNN hd rfl fun h29 =>
    .iteNN hd rfl fun h33 => .iteNN hd rfl fun h55 => .iteNN hd rfl fun h65 => ?_
  exact .reject (invalidWord_iff_fields.mpr
    (by simp [hd, h07, h0A, h15, h18, h1E, h29, h33, h55, h65]))

/-- The decoder's answer to every word, by digit1. -/
theorem decode_answer (op : Word) : DecodeAnswer op (decode op) := by
  rcases nibble_cases (digit1 op) with d | d | d | d | d | d | d | d | d | d | d | d | d | d | d | d
  · exact decode_of_digit0 d ▸ decode0_answer d
  · exact decode_of_digit1 d ▸ .ofFormNNN d rfl
  · exact decode_of_digit2 d ▸ .ofFormNNN d rfl
  · exact decode_of_digit3 d ▸ .ofFormXNN d rfl
  · exact decode_of_digit4 d ▸ .ofFormXNN d rfl
  · exact decode_of_digit5 d ▸ decode5_answer d
  · exact decode_of_digit6 d ▸ .ofFormXNN d rfl
  · exact decode_of_digit7 d ▸ .ofFormXNN d rfl
  · exact decode_of_digit8 d ▸ decode8_answer d
  · exact decode_of_digit9 d ▸ decode9_answer d
  · exact decode_of_digitA d ▸ .ofFormNNN d rfl
  · exact decode_of_digitB d ▸ .ofFormNNN d rfl
  · exact decode_of_digitC d ▸ .ofFormXNN d rfl
  · exact decode_of_digitD d ▸ .ofFormXYN d rfl
  · exact decode_of_digitE d ▸ decodeE_answer d
  · exact decode_of_digitF d ▸ decodeF_answer d

/-- Settles O4: an answer that is an instruction is the one `op` is the word of. -/
theorem encodeOfDecode : Obligations.EncodeOfDecode := by
  intro op i h
  have hop : encode i = op := by
    cases h ▸ decode_answer op with
    | instr _ word => exact word
  exact ⟨hop, hop ▸ encode_and_rowMask i⟩

/-- The decoder rejects exactly R43's list. -/
theorem decode_eq_error_iff {op : Word} :
    decode op = .error (.invalidOpcode op) ↔ InvalidWord op := by
  constructor
  · intro h
    cases h ▸ decode_answer op with
    | reject invalid => exact invalid
  · intro h
    generalize hr : decode op = r
    cases hr ▸ decode_answer op with
    | instr i word => exact absurd (word ▸ h) (not_invalidWord_encode i)
    | reject => rfl

/-- A cycle of a running core that ends halted returns its fault (R102). -/
theorem stepResult_of_takeFault {s : State} {f : Fault} (hs : s.status = .running)
    (h : step s = .next (takeFault f s)) : stepResult s = .fault f := by
  simp [stepResult, stepFault, stepState, hs, h, takeFault]

/-- Settles O5: the decoder rejects R43's list, and a Step takes the rejection as its fault. -/
theorem invalidWordsHalt : Obligations.InvalidWordsHalt := by
  refine ⟨fun op => decode_eq_error_iff, fun s op hs hf hop => ?_⟩
  have hstep := step_of_decode_error hs hf (decode_eq_error_iff.mpr hop)
  exact ⟨hstep, stepResult_of_takeFault hs hstep⟩

/-! ### The opcode map (R42) -/

theorem fieldX_eq_numX (op : Word) : fieldX op = numX op := by
  rw [← BitVec.toNat_inj, toNat_fieldX, numX, BitVec.toNat_ofNat]

theorem fieldY_eq_numY (op : Word) : fieldY op = numY op := by
  rw [← BitVec.toNat_inj, toNat_fieldY, numY, BitVec.toNat_ofNat]

theorem fieldN_eq_numN (op : Word) : fieldN op = numN op := rfl

theorem fieldNN_eq_numNN (op : Word) : fieldNN op = numNN op := rfl

theorem fieldNNN_eq_numNNN (op : Word) : fieldNNN op = numNNN op := rfl

/-! A row of R42 is a form with some digits fixed, and a word that has these digits decodes to the row's
instruction. -/

theorem decode_rowWord {op : Word} {i : Instr} (w : Word) (hi : encode i = w)
    (h : op.toNat = w.toNat) : decode op = .ok i :=
  decode_of_encode_eq (hi.trans (BitVec.eq_of_toNat_eq h.symm))

theorem decode_rowNNN {op : Word} {i : Instr} (d : Nibble) (hi : encode i = formNNN d (numNNN op))
    (hd : op.toNat / 4096 = d.toNat) : decode op = .ok i := by
  apply decode_of_encode_eq
  rw [hi, ← digit1_eq_iff.mpr hd, ← fieldNNN_eq_numNNN, formNNN_fields]

theorem decode_rowXNN {op : Word} {i : Instr} (d : Nibble)
    (hi : encode i = formXNN d (numX op) (numNN op)) (hd : op.toNat / 4096 = d.toNat) :
    decode op = .ok i := by
  apply decode_of_encode_eq
  rw [hi, ← digit1_eq_iff.mpr hd, ← fieldX_eq_numX, ← fieldNN_eq_numNN, formXNN_fields]

theorem decode_rowXYN {op : Word} {i : Instr} (d : Nibble)
    (hi : encode i = formXYN d (numX op) (numY op) (numN op)) (hd : op.toNat / 4096 = d.toNat) :
    decode op = .ok i := by
  apply decode_of_encode_eq
  rw [hi, ← digit1_eq_iff.mpr hd, ← fieldX_eq_numX, ← fieldY_eq_numY, ← fieldN_eq_numN,
    formXYN_fields]

/-- A row that fixes N too. -/
theorem decode_rowXY {op : Word} {i : Instr} (d n : Nibble)
    (hi : encode i = formXYN d (numX op) (numY op) n) (hd : op.toNat / 4096 = d.toNat)
    (hn : op.toNat % 16 = n.toNat) : decode op = .ok i :=
  decode_rowXYN d (by rw [hi, ← fieldN_eq_numN, fieldN_eq_iff.mpr hn]) hd

/-- A row that fixes NN too. -/
theorem decode_rowX {op : Word} {i : Instr} (d : Nibble) (b : Byte)
    (hi : encode i = formXNN d (numX op) b) (hd : op.toNat / 4096 = d.toNat)
    (hb : op.toNat % 256 = b.toNat) : decode op = .ok i :=
  decode_rowXNN d (by rw [hi, ← fieldNN_eq_numNN, fieldNN_eq_iff.mpr hb]) hd

/-- The zero row's invalid words (R43). -/
theorem invalidWord_of_digit0 {op : Word} (hd : op.toNat / 4096 = 0)
    (h : op.toNat ∉ [0x0000, 0x00E0, 0x00EE]) : InvalidWord op := by
  simp only [List.mem_cons, List.not_mem_nil, or_false, not_or] at h
  simp only [InvalidWord]
  omega

/-- Settles O2: each pattern is a row of its form, and each invalid row is on R43's list. -/
theorem decodeFollowsTheOpcodeMap : Obligations.DecodeFollowsTheOpcodeMap := by
  intro op
  exact ⟨decode_rowWord 0x0000#16 rfl,
    decode_rowWord 0x00E0#16 rfl,
    decode_rowWord 0x00EE#16 rfl,
    decode_rowNNN 0x1#4 rfl,
    decode_rowNNN 0x2#4 rfl,
    decode_rowXNN 0x3#4 rfl,
    decode_rowXNN 0x4#4 rfl,
    decode_rowXY 0x5#4 0x0#4 rfl,
    decode_rowXNN 0x6#4 rfl,
    decode_rowXNN 0x7#4 rfl,
    decode_rowXY 0x8#4 0x0#4 rfl,
    decode_rowXY 0x8#4 0x1#4 rfl,
    decode_rowXY 0x8#4 0x2#4 rfl,
    decode_rowXY 0x8#4 0x3#4 rfl,
    decode_rowXY 0x8#4 0x4#4 rfl,
    decode_rowXY 0x8#4 0x5#4 rfl,
    decode_rowXY 0x8#4 0x6#4 rfl,
    decode_rowXY 0x8#4 0x7#4 rfl,
    decode_rowXY 0x8#4 0xE#4 rfl,
    decode_rowXY 0x9#4 0x0#4 rfl,
    decode_rowNNN 0xA#4 rfl,
    decode_rowNNN 0xB#4 rfl,
    decode_rowXNN 0xC#4 rfl,
    decode_rowXYN 0xD#4 rfl,
    decode_rowX 0xE#4 0x9E#8 rfl,
    decode_rowX 0xE#4 0xA1#8 rfl,
    decode_rowX 0xF#4 0x07#8 rfl,
    decode_rowX 0xF#4 0x0A#8 rfl,
    decode_rowX 0xF#4 0x15#8 rfl,
    decode_rowX 0xF#4 0x18#8 rfl,
    decode_rowX 0xF#4 0x1E#8 rfl,
    decode_rowX 0xF#4 0x29#8 rfl,
    decode_rowX 0xF#4 0x33#8 rfl,
    decode_rowX 0xF#4 0x55#8 rfl,
    decode_rowX 0xF#4 0x65#8 rfl,
    fun hd h => decode_eq_error_iff.mpr (invalidWord_of_digit0 hd h),
    fun hd h => decode_eq_error_iff.mpr (by simp [InvalidWord, hd, h]),
    fun hd h => decode_eq_error_iff.mpr (by simp [InvalidWord, hd, h]),
    fun hd h => decode_eq_error_iff.mpr (by simp [InvalidWord, hd, h]),
    fun hd h => decode_eq_error_iff.mpr (by simp [InvalidWord, hd, h]),
    fun hd h => decode_eq_error_iff.mpr (by simp [InvalidWord, hd, h])⟩

/-- Settles O1: each word is the word of its instruction, and the last is on R43's list. -/
theorem sampleWordsDecode : Obligations.SampleWordsDecode :=
  ⟨decode_encode .cls, decode_encode .ret, decode_encode (.jp 0x234#12),
    decode_encode (.seByte 3#4 0x10#8), decode_encode (.ldByte 0xA#4 0x42#8),
    decode_encode (.subnReg 1#4 2#4), decode_encode (.ldI 0x300#12),
    decode_encode (.drw 0#4 1#4 5#4), decode_encode (.sknp 5#4), decode_encode (.ldVxK 4#4),
    decode_encode (.storeRegs 3#4),
    decode_eq_error_iff.mpr (.inr (.inr (.inr (.inl ⟨by decide, by decide⟩))))⟩

end Sys2Proof.Machine

/-! The cycle (spec/40_cycle.md): what the fetch reads (R51), what a Step leaves when it faults (R55) and
which of the three results it returns (R56). -/

namespace Sys2Proof.Machine

/-! ### The fetch and the decoded instruction (R49–R54) -/

theorem firstOutside_of_ge {a : Nat} (h : 4096 ≤ a) : firstOutside a = a := if_pos h

theorem firstOutside_of_lt {a : Nat} (h : a < 4096) : firstOutside a = 4096 :=
  if_neg (Nat.not_le.mpr h)

/-- A running core that cannot fetch halts at the first address that does not exist (R51). -/
theorem step_fetch_outside {s : State} (hs : s.status = .running) (hp : 0xFFF ≤ s.pc.toNat) :
    step s = .next (takeFault (.memoryOutOfBounds (firstOutside s.pc.toNat)) s) :=
  step_of_fetch_error hs (fetch_of_gt hp)

/-- Settles O7: the fetch below 0xFFF, and its fault at and above 0x1000 and at 0xFFF. -/
theorem fetchReadsTwoBytesOrFaults : Obligations.FetchReadsTwoBytesOrFaults := by
  refine fun s => ⟨fetch_of_le, fun hs hp => ?_, fun hs hp => ?_⟩
  · have h := step_fetch_outside hs (Nat.le_trans (by decide) hp)
    rwa [firstOutside_of_ge hp] at h
  · have h := step_fetch_outside hs (Nat.le_of_eq hp.symm)
    rwa [firstOutside_of_lt (by omega)] at h

/-- Settles O6: the fetch reads the two bytes at PC, and the Step executes what they decode to. -/
theorem stepRunsTheDecodedInstruction : Obligations.StepRunsTheDecodedInstruction :=
  fun _ _ hs hp hd => step_of_decode_ok hs (fetch_of_le hp) hd

/-! ### Faults (R50, R55, R102) -/

/-- An instruction completes with the status as it was, or takes a fault R100 gives it. -/
theorem Effect.status_cases {s t : State} {i : Instr} (he : Effect s i t) :
    t.status = s.status ∨ ∃ f, MayRaise i f ∧ t = takeFault f s := by
  cases he with
  | fault f may _ => exact .inr ⟨f, may, rfl⟩
  | _ => exact .inl rfl

/-- A running core's Step answers a next state: it still runs, or has taken a fault on `s` as it was. -/
theorem step_running {s : State} (hs : s.status = .running) :
    ∃ t, step s = .next t ∧ (t.status = .running ∨ ∃ f, t = takeFault f s) := by
  cases hf : fetch s with
  | error f => exact ⟨_, step_of_fetch_error hs hf, .inr ⟨f, rfl⟩⟩
  | ok op =>
    cases hd : decode op with
    | error e => exact ⟨_, step_of_decode_error hs hf hd, .inr ⟨_, rfl⟩⟩
    | ok i =>
      obtain ⟨t, hexec, he⟩ := exists_exec_effect i s
      refine ⟨t, (step_of_decode_ok hs hf hd).trans hexec, ?_⟩
      rw [← hs]
      exact he.status_cases.imp_right fun ⟨f, _, ht⟩ => ⟨f, ht⟩

/-- Settles O10: no cycle of a running core is refused. -/
theorem runningStepAnswersNext : Obligations.RunningStepAnswersNext := by
  intro s hs
  obtain ⟨t, hstep, -⟩ := step_running hs
  exact ⟨t, hstep⟩

/-- Settles O9: a Step that ends halted has taken its fault on the state before it. -/
theorem faultUndoesTheCycle : Obligations.FaultUndoesTheCycle := by
  intro s t f hs hstep ht
  obtain ⟨u, hu, hcase⟩ := step_running hs
  cases hu.symm.trans hstep
  rcases hcase with hrun | ⟨g, rfl⟩
  · cases hrun.symm.trans ht
  · cases ht
    exact ⟨rfl, stepResult_of_takeFault hs hstep⟩

/-! ### The three results (R56) -/

theorem stepState_of_next {s t : State} (h : step s = .next t) : stepState s = t := by
  rw [stepState, h]

theorem stepState_halted {s : State} {f : Fault} (h : s.status = .halted f) : stepState s = s := by
  rw [stepState, step_halted h]

/-- A Step reports a fault exactly when it leaves the core halted, by the fault it left (R50, R102). -/
theorem stepFault_eq_some_iff {s : State} {f : Fault} :
    stepFault s = some f ↔ (stepState s).status = .halted f := by
  cases hs : s.status with
  | halted g => simp [stepFault, stepState_halted hs, hs]
  | running => cases ht : (stepState s).status <;> simp [stepFault, hs, ht]

theorem stepFault_eq_none_iff {s : State} :
    stepFault s = none ↔ (stepState s).status = .running := by
  cases ht : (stepState s).status with
  | halted f => simp [stepFault_eq_some_iff.mpr ht]
  | running =>
    refine iff_of_true (Option.eq_none_iff_forall_ne_some.mpr fun f hf => ?_) rfl
    cases ht.symm.trans (stepFault_eq_some_iff.mp hf)

/-- A core that runs after a Step ran before it: only Reset ends a halt (R50). -/
theorem running_of_stepState_running {s : State} (h : (stepState s).status = .running) :
    s.status = .running := by
  cases hs : s.status with
  | running => rfl
  | halted f => rw [stepState_halted hs, hs] at h; cases h

theorem stepResult_eq_fault_iff {s : State} {f : Fault} :
    stepResult s = .fault f ↔ (stepState s).status = .halted f := by
  rw [← stepFault_eq_some_iff, stepResult]
  cases stepFault s with
  | some g => simp
  | none => cases waits s <;> simp

/-- Settles O8: a halted core's Step leaves it halted by its fault. -/
theorem haltedStepRepeatsItsFault : Obligations.HaltedStepRepeatsItsFault := by
  intro s f hs
  have hstate := stepState_halted hs
  exact ⟨step_halted hs, hstate, stepResult_eq_fault_iff.mpr (by rw [hstate, hs])⟩

theorem stepResult_eq_waiting_iff {s : State} :
    stepResult s = .waiting ↔ (stepState s).status = .running ∧ waits s = true := by
  rw [← stepFault_eq_none_iff, stepResult]
  cases stepFault s with
  | some g => simp
  | none => cases waits s <;> simp

theorem stepResult_eq_ok_iff {s : State} :
    stepResult s = .ok ↔ stepResult s ≠ .waiting ∧ (stepState s).status = .running := by
  rw [← stepFault_eq_none_iff, stepResult]
  cases stepFault s with
  | some g => simp
  | none => cases waits s <;> simp

/-- A core waits at an FX0A with no key pressed (R98). -/
theorem waits_iff {s : State} :
    waits s = true ↔
      (∃ op x, fetch s = .ok op ∧ decode op = .ok (.ldVxK x)) ∧ ∀ k, s.getKey k = false := by
  rw [← leastPressed_eq_none, ← Option.isNone_iff_eq_none, waits]
  split
  next hf => simp [hf]
  next op hf =>
    split
    next x hd => simp [hf, hd]
    next hne => simpa [hf] using fun x hd => absurd hd (hne x)

/-- A waiting Step leaves the core as it was (R98). -/
theorem stepState_of_waits {s : State} (hs : s.status = .running) (hw : waits s = true) :
    stepState s = s := by
  obtain ⟨⟨op, x, hf, hd⟩, hkeys⟩ := waits_iff.mp hw
  exact stepState_of_next
    ((step_of_decode_ok hs hf hd).trans (exec_ldVxK_none (leastPressed_eq_none.mpr hkeys)))

/-- Settles O13: a Step that waits leaves the core running, and a halted one never waits. -/
theorem stepResultIsOkWaitingOrFault : Obligations.StepResultIsOkWaitingOrFault := by
  refine fun s => ⟨?_, fun f => stepResult_eq_fault_iff, stepResult_eq_ok_iff⟩
  rw [stepResult_eq_waiting_iff, ← waits_iff]
  constructor
  · exact fun ⟨hrun, hw⟩ => ⟨running_of_stepState_running hrun, hw⟩
  · exact fun ⟨hs, hw⟩ => ⟨by rw [stepState_of_waits hs hw, hs], hw⟩

end Sys2Proof.Machine

/-! What an instruction leaves unchanged (spec/40_cycle.md R58, D26). One rule per state operation: a
frame that allows the part written is kept by the write; an instruction's frame chains these rules from
the fetch on. -/

namespace Sys2Proof.Machine

/-! ### The rules -/

section
variable {may : Part → Prop} {s t : State}

theorem FrameExcept.refl (may : Part → Prop) (s : State) : FrameExcept may s s := by
  intro p _
  cases p <;> rfl

/-- The fetch moves PC and nothing else (R52). -/
theorem FrameExcept.fetched (hpc : may .pc) (s : State) : FrameExcept may s (fetched s) := by
  intro p hp
  cases p with
  | pc => exact absurd hpc hp
  | _ => rfl

theorem FrameExcept.setI (h : FrameExcept may s t) (hi : may .i) (w : Word) :
    FrameExcept may s (t.setI w) := by
  intro p hp
  cases p with
  | i => exact absurd hi hp
  | _ => exact h _ hp

theorem FrameExcept.setDt (h : FrameExcept may s t) (hdt : may .dt) (b : Byte) :
    FrameExcept may s (t.setDt b) := by
  intro p hp
  cases p with
  | dt => exact absurd hdt hp
  | _ => exact h _ hp

theorem FrameExcept.setSt (h : FrameExcept may s t) (hst : may .st) (b : Byte) :
    FrameExcept may s (t.setSt b) := by
  intro p hp
  cases p with
  | st => exact absurd hst hp
  | _ => exact h _ hp

theorem FrameExcept.drawByte (h : FrameExcept may s t) (hdraws : may .draws) :
    FrameExcept may s (drawByte t).2 := by
  intro p hp
  cases p with
  | draws => exact absurd hdraws hp
  | _ => exact h _ hp

theorem FrameExcept.setV (h : FrameExcept may s t) {x : Nibble} (hx : may (.v x)) (b : Byte) :
    FrameExcept may s (t.setV x b) := by
  intro p hp
  cases p with
  | v y =>
    have hy : y ≠ x := fun hyx => hp (hyx ▸ hx)
    exact (getV_setV_ne t b hy).trans (h _ hp)
  | _ => exact h _ hp

theorem FrameExcept.setResultAndFlag (h : FrameExcept may s t) {x : Nibble} (hx : may (.v x))
    (hvf : may (.v vf)) (r f : Byte) : FrameExcept may s (setResultAndFlag t x r f) :=
  (h.setV hx r).setV hvf f

/-- Loading registers writes the registers it numbers, upwards from `k` (R88). -/
theorem FrameExcept.setRegs {bs : List Byte} {k : Nat} (h : FrameExcept may s t)
    (hv : ∀ j, j < bs.length → may (.v (BitVec.ofNat 4 (k + j)))) :
    FrameExcept may s (setRegs t k bs) := by
  induction bs generalizing t k with
  | nil => exact h
  | cons b bs ih =>
    refine ih (h.setV (hv 0 (Nat.succ_pos _)) b) fun j hj => ?_
    rw [Nat.add_assoc, Nat.add_comm 1]
    exact hv (j + 1) (Nat.succ_lt_succ hj)

/-- Copying bytes writes the addresses it reaches, upwards from `a` (R33). -/
theorem FrameExcept.copyBytes {bs : List Byte} {a : Nat} (h : FrameExcept may s t)
    (hmem : ∀ k, k < bs.length → may (.mem (a + k))) :
    FrameExcept may s { t with mem := copyBytes t.mem a bs } := by
  intro p hp
  cases p with
  | mem b =>
    have hb : ¬ (a ≤ b ∧ b < a + bs.length) := by
      rintro ⟨hle, hlt⟩
      obtain ⟨k, rfl⟩ := Nat.exists_eq_add_of_le hle
      exact hp (hmem k (by omega))
    exact ((read_copyBytes bs t.mem a b).trans (if_neg hb)).trans (h _ hp)
  | _ => exact h _ hp

/-- A framebuffer may replace another that has the same pixels outside the frame's exceptions. -/
theorem FrameExcept.screen {scr : Screen} (h : FrameExcept may s t)
    (hpixel : ∀ x y, ¬ may (.pixel x y) → scr.pixel x y = t.screen.pixel x y) :
    FrameExcept may s { t with screen := scr } := by
  intro p hp
  cases p with
  | pixel x y => exact (hpixel x y hp).trans (h _ hp)
  | _ => exact h _ hp

end

/-! ### Control flow (R59–R68) -/

/-- A cycle that only moves PC (R59, R62, R68). -/
theorem move_frame (s : State) (w : Word) :
    FrameExcept (fun p => p = .pc) s ((fetched s).setPc w) := by
  intro p hp
  cases p with
  | pc => exact absurd rfl hp
  | _ => rfl

/-- A pop keeps the whole stack, the popped entry included (R61). -/
theorem pop_frame (s : State) (k : Fin 17) (w : Word) :
    FrameExcept (fun p => p = .pc ∨ p = .sp) s { s with sp := k, pc := w } := by
  intro p hp
  cases p with
  | pc => exact absurd (.inl rfl) hp
  | sp => exact absurd (.inr rfl) hp
  | _ => rfl

/-- A push keeps every entry but the one SP names (R63). -/
theorem push_frame (s : State) (room : s.sp.val < 16) (ret : Word) (k : Fin 17) (w : Word) :
    FrameExcept (fun p => p = .pc ∨ p = .sp ∨ ∃ k : Fin 16, k.val = s.sp.val ∧ p = .stack k) s
      { s with stack := s.stack.set s.sp.val ret room, sp := k, pc := w } := by
  intro p hp
  cases p with
  | pc => exact absurd (.inl rfl) hp
  | sp => exact absurd (.inr (.inl rfl)) hp
  | stack j =>
    have hj : s.sp.val ≠ j.val := fun h => hp (.inr (.inr ⟨j, h.symm, rfl⟩))
    exact Vector.getElem_set_ne room j.isLt hj
  | _ => rfl

/-- A cycle that ends in a skip moves PC, whether or not it skips (R59). -/
theorem exec_move_of_skip {i : Instr} {s : State} {c : Bool}
    (h : exec i s = .next (skipIf c (fetched s))) : ∃ w, exec i s = .next ((fetched s).setPc w) :=
  ⟨_, by rw [h, skipIf_eq]⟩

/-- NOP, JP, JP V0 and the skips that compare registers only move PC. -/
theorem exec_move {i : Instr} {x y : Nibble} {nn : Byte} {nnn : Imm12} (s : State)
    (hi : i ∈ [.nop, .jp nnn, .seByte x nn, .sneByte x nn, .seReg x y, .sneReg x y, .jpV0 nnn]) :
    ∃ w, exec i s = .next ((fetched s).setPc w) := by
  simp only [List.mem_cons, List.not_mem_nil, or_false] at hi
  rcases hi with rfl | rfl | rfl | rfl | rfl | rfl | rfl
  · exact ⟨s.pc + 2#16, exec_nop s⟩
  · exact ⟨_, exec_jp nnn s⟩
  · exact exec_move_of_skip (exec_seByte x nn s)
  · exact exec_move_of_skip (exec_sneByte x nn s)
  · exact exec_move_of_skip (exec_seReg x y s)
  · exact exec_move_of_skip (exec_sneReg x y s)
  · exact ⟨_, exec_jpV0 nnn s⟩

theorem ret_frame {s t : State} (h : exec .ret s = .next t) :
    t = takeFault .stackUnderflow s ∨ FrameExcept (fun p => p = .pc ∨ p = .sp) s t := by
  by_cases hsp : 0 < s.sp.val
  · cases (exec_ret_pos hsp).symm.trans h
    exact .inr (pop_frame s _ _)
  · cases (exec_ret_empty (by omega)).symm.trans h
    exact .inl rfl

theorem call_frame {nnn : Imm12} {s t : State} (h : exec (.call nnn) s = .next t) :
    t = takeFault .stackOverflow s ∨
      FrameExcept (fun p => p = .pc ∨ p = .sp ∨ ∃ k : Fin 16, k.val = s.sp.val ∧ p = .stack k) s t := by
  by_cases hsp : s.sp.val < 16
  · cases (exec_call_lt nnn hsp).symm.trans h
    exact .inr (push_frame s hsp _ _ _)
  · cases (exec_call_full nnn (by omega)).symm.trans h
    exact .inl rfl

/-- Settles O56: a moved PC, a pop and a push. -/
theorem frameOfControlFlow : Obligations.FrameOfControlFlow := by
  refine ⟨fun i x y nn nnn s t hi h => ?_, fun _ _ => ret_frame, fun _ _ _ => call_frame⟩
  obtain ⟨w, hw⟩ := exec_move s hi
  cases hw.symm.trans h
  exact move_frame s w

/-! ### ALU (R71–R82) -/

/-- The loads, 7XNN and the logic write one register. -/
theorem exec_writesReg {i : Instr} {x y : Nibble} {nn : Byte} (s : State)
    (hi : i ∈ [.ldByte x nn, .addByte x nn, .ldReg x y, .orReg x y, .andReg x y, .xorReg x y]) :
    ∃ b, exec i s = .next ((fetched s).setV x b) := by
  simp only [List.mem_cons, List.not_mem_nil, or_false] at hi
  rcases hi with rfl | rfl | rfl | rfl | rfl | rfl
  · exact ⟨_, exec_ldByte x nn s⟩
  · exact ⟨_, exec_addByte x nn s⟩
  · exact ⟨_, exec_ldReg x y s⟩
  · exact ⟨_, exec_orReg x y s⟩
  · exact ⟨_, exec_andReg x y s⟩
  · exact ⟨_, exec_xorReg x y s⟩

/-- The arithmetic on registers and the shifts write a result and its flag (R57). -/
theorem exec_writesRegAndFlag {i : Instr} {x y : Nibble} (s : State)
    (hi : i ∈ [.addReg x y, .subReg x y, .shr x y, .subnReg x y, .shl x y]) :
    ∃ r f, exec i s = .next (setResultAndFlag (fetched s) x r f) := by
  simp only [List.mem_cons, List.not_mem_nil, or_false] at hi
  rcases hi with rfl | rfl | rfl | rfl | rfl
  · exact ⟨_, _, exec_addReg x y s⟩
  · exact ⟨_, _, exec_subReg x y s⟩
  · exact ⟨_, _, exec_shr x y s⟩
  · exact ⟨_, _, exec_subnReg x y s⟩
  · exact ⟨_, _, exec_shl x y s⟩

/-- Settles O57: one register written, a result and its flag, a random byte drawn. -/
theorem frameOfAlu : Obligations.FrameOfAlu := by
  refine fun x y nn i s t h => ⟨fun hi => ?_, fun hi => ?_, fun hi => ?_⟩
  · obtain ⟨b, hb⟩ := exec_writesReg s hi
    cases hb.symm.trans h
    exact (FrameExcept.fetched (.inl rfl) s).setV (.inr rfl) b
  · obtain ⟨r, f, hrf⟩ := exec_writesRegAndFlag s hi
    cases hrf.symm.trans h
    exact (FrameExcept.fetched (.inl rfl) s).setResultAndFlag (.inr (.inl rfl)) (.inr (.inr rfl)) r f
  · subst hi
    cases (exec_rnd x nn s).symm.trans h
    exact ((FrameExcept.fetched (.inl rfl) s).drawByte (.inr (.inr rfl))).setV (.inr (.inl rfl)) _

/-! ### Index register and memory moves (R83–R88) -/

theorem addIVx_frame {x : Nibble} {s t : State} (h : exec (.addIVx x) s = .next t) :
    (∃ sum, t = takeFault (.indexOverflow sum) s) ∨
      FrameExcept (fun p => p = .pc ∨ p = .i) s t := by
  rw [exec_addIVx] at h
  split at h
  · cases h; exact .inl ⟨_, rfl⟩
  · cases h; exact .inr ((FrameExcept.fetched (.inl rfl) s).setI (.inr rfl) _)

theorem ldBVx_frame {x : Nibble} {s t : State} (h : exec (.ldBVx x) s = .next t) :
    (∃ a, t = takeFault (.memoryOutOfBounds a) s) ∨
      FrameExcept (fun p => p = .pc ∨ ∃ k, k < 3 ∧ p = .mem (indexAddr s k)) s t := by
  rw [exec_ldBVx] at h
  split at h
  · cases h
    exact .inr ((FrameExcept.fetched (.inl rfl) s).copyBytes fun k hk => .inr ⟨k, hk, rfl⟩)
  · cases h; exact .inl ⟨_, rfl⟩

theorem storeRegs_frame {x : Nibble} {s t : State} (h : exec (.storeRegs x) s = .next t) :
    (∃ a, t = takeFault (.memoryOutOfBounds a) s) ∨
      FrameExcept (fun p => p = .pc ∨ ∃ k, k ≤ x.toNat ∧ p = .mem (indexAddr s k)) s t := by
  rw [exec_storeRegs] at h
  split at h
  · cases h
    refine .inr ((FrameExcept.fetched (.inl rfl) s).copyBytes fun k hk => .inr ⟨k, ?_, rfl⟩)
    rw [regsUpTo_length] at hk
    exact Nat.le_of_lt_succ hk
  · cases h; exact .inl ⟨_, rfl⟩

theorem loadRegs_frame {x : Nibble} {s t : State} (h : exec (.loadRegs x) s = .next t) :
    (∃ a, t = takeFault (.memoryOutOfBounds a) s) ∨
      FrameExcept (fun p => p = .pc ∨ ∃ z : Nibble, z.toNat ≤ x.toNat ∧ p = .v z) s t := by
  rw [exec_loadRegs] at h
  split at h
  · cases h
    refine .inr ((FrameExcept.fetched (.inl rfl) s).setRegs fun j hj => .inr ⟨_, ?_, rfl⟩)
    rw [List.length_map, List.length_range] at hj
    rw [BitVec.toNat_ofNat, Nat.zero_add]
    exact Nat.le_trans (Nat.mod_le _ _) (Nat.le_of_lt_succ hj)
  · cases h; exact .inl ⟨_, rfl⟩

/-- Settles O58: I written, bytes copied from I on, registers loaded. -/
theorem frameOfIndexAndMemory : Obligations.FrameOfIndexAndMemory := by
  refine fun x nnn s t => ⟨fun h => ?_, fun h => ?_, addIVx_frame, ldBVx_frame, storeRegs_frame,
    loadRegs_frame⟩
  · cases (exec_ldI nnn s).symm.trans h
    exact (FrameExcept.fetched (.inl rfl) s).setI (.inr rfl) _
  · cases (exec_ldFVx x s).symm.trans h
    exact (FrameExcept.fetched (.inl rfl) s).setI (.inr rfl) _

/-! ### Framebuffer (R91, R92) -/

/-- The rows DXYN draws reach the pixels its sprite hits (R89, R90). -/
theorem rowsHit_spriteRows {s : State} {x y n px py : Nat} :
    RowsHit x y (spriteRows s n) px py ↔ SpriteHits s x y n (px % 64) (py % 32) := by
  simp only [RowsHit, SpriteHits, spriteRows_length]
  refine exists_congr fun r => exists_congr fun c => and_congr_right fun hr => ?_
  rw [spriteRows_getD s hr]

theorem drw_frame {x y n : Nibble} {s t : State} (h : exec (.drw x y n) s = .next t) :
    (∃ a, t = takeFault (.memoryOutOfBounds a) s) ∨
      FrameExcept (fun p => p = .pc ∨ p = .v 0xF#4 ∨ ∃ px py, p = .pixel px py ∧
        SpriteHits s (s.getV x).toNat (s.getV y).toNat n.toNat (px % 64) (py % 32)) s t := by
  rw [exec_drw] at h
  split at h
  · cases h
    have hlen : (spriteRows s n.toNat).length ≤ 32 := by
      have := n.isLt
      rw [spriteRows_length]
      omega
    refine .inr (((FrameExcept.fetched (.inl rfl) s).screen fun px py hmay => ?_).setV
      (.inr (.inl rfl)) _)
    refine (drawRows_pixel _ (s.screen, false) _ _ hlen px py).2 fun hhit => hmay ?_
    exact .inr (.inr ⟨px, py, rfl, rowsHit_spriteRows.mp hhit⟩)
  · cases h; exact .inl ⟨_, rfl⟩

/-- Settles O59: CLS may write every pixel, DXYN those its rows reach, and VF. -/
theorem frameOfDisplay : Obligations.FrameOfDisplay := by
  refine ⟨fun s t h => ?_, fun _ _ _ _ _ => drw_frame⟩
  cases (exec_cls s).symm.trans h
  exact (FrameExcept.fetched (.inl rfl) s).screen fun px py hmay =>
    absurd (.inr ⟨px, py, rfl⟩) hmay

/-! ### Keys and timers (R93–R98) -/

/-- A key skip faults on its operand, or moves PC (R93, R94). -/
theorem exec_keySkip {i : Instr} {x : Nibble} (s : State) (hi : i = .skp x ∨ i = .sknp x) :
    exec i s = .next (takeFault (.keyIndexOutOfRange (s.getV x)) s) ∨
      ∃ w, exec i s = .next ((fetched s).setPc w) := by
  by_cases hx : (s.getV x).toNat ≤ 15
  · rcases hi with rfl | rfl
    · exact .inr (exec_move_of_skip (exec_skp_of_le hx))
    · exact .inr (exec_move_of_skip (exec_sknp_of_le hx))
  · rcases hi with rfl | rfl
    · exact .inl (exec_skp_of_gt (Nat.lt_of_not_le hx))
    · exact .inl (exec_sknp_of_gt (Nat.lt_of_not_le hx))

theorem keySkip_frame {i : Instr} {x : Nibble} {s t : State} (hi : i = .skp x ∨ i = .sknp x)
    (h : exec i s = .next t) :
    (∃ k, t = takeFault (.keyIndexOutOfRange k) s) ∨ FrameExcept (fun p => p = .pc) s t := by
  rcases exec_keySkip s hi with hf | ⟨w, hw⟩
  · cases hf.symm.trans h
    exact .inl ⟨_, rfl⟩
  · cases hw.symm.trans h
    exact .inr (move_frame s w)

theorem ldVxK_frame {x : Nibble} {s t : State} (h : exec (.ldVxK x) s = .next t) :
    FrameExcept (fun p => p = .pc ∨ p = .v x) s t := by
  cases hkey : leastPressed s with
  | none =>
    cases (exec_ldVxK_none hkey).symm.trans h
    exact .refl _ s
  | some k =>
    cases (exec_ldVxK_some hkey).symm.trans h
    exact (FrameExcept.fetched (.inl rfl) s).setV (.inr rfl) _

/-- Settles O60: a key skip, a register written, a timer written. -/
theorem frameOfKeysAndTimers : Obligations.FrameOfKeysAndTimers := by
  refine fun x s t => ⟨keySkip_frame (.inl rfl), keySkip_frame (.inr rfl), fun h => ?_, ldVxK_frame,
    fun h => ?_, fun h => ?_⟩
  · cases (exec_ldVxDT x s).symm.trans h
    exact (FrameExcept.fetched (.inl rfl) s).setV (.inr rfl) _
  · cases (exec_ldDTVx x s).symm.trans h
    exact (FrameExcept.fetched (.inl rfl) s).setDt (.inr rfl) _
  · cases (exec_ldSTVx x s).symm.trans h
    exact (FrameExcept.fetched (.inl rfl) s).setSt (.inr rfl) _

end Sys2Proof.Machine

/-! Control flow (spec/41_flow.md): where PC goes, what the call stack holds after a CALL and a RET, and
the fault of the next fetch where PC was sent too high. -/

namespace Sys2Proof.Machine

/-! ### Where PC goes (R59, R62, R68) -/

@[simp] theorem toNat_addrOf (nnn : Imm12) : (addrOf nnn).toNat = nnn.toNat := by
  have := nnn.isLt
  simp only [addrOf, BitVec.toNat_setWidth]
  omega

/-- The sum of BNNN loses no carry (R68). -/
theorem toNat_addrOf_add_wideOf (nnn : Imm12) (b : Byte) :
    (addrOf nnn + wideOf b).toNat = nnn.toNat + b.toNat := by
  have := nnn.isLt
  have := b.isLt
  simp only [wideOf, BitVec.toNat_add, toNat_addrOf, BitVec.toNat_setWidth]
  omega

@[simp] theorem skipIf_v (c : Bool) (s : State) : (skipIf c s).v = s.v := by
  rw [skipIf_eq, setPc_v]

/-- A skip passes the two bytes after the instruction's own two (R59). -/
theorem skipIf_fetched_pc (c : Bool) (s : State) :
    (skipIf c (fetched s)).pc = if c then s.pc + 4#16 else s.pc + 2#16 := by
  have h4 : s.pc + 2#16 + 2#16 = s.pc + 4#16 := by bv_omega
  rw [skipIf_eq, setPc_pc, fetched_pc, h4]

/-! ### NOP (R60) -/

/-- Below 0x1000 only the three words of the zero row decode (R42, R43). -/
theorem decode_digit0 {op : Word} (htop : op.toNat ≤ 0x0FFF) (hcls : op.toNat ≠ 0x00E0)
    (hret : op.toNat ≠ 0x00EE) :
    decode op = if op.toNat = 0 then .ok .nop else .error (.invalidOpcode op) := by
  split
  next hz => exact decode_rowWord 0x0000#16 rfl hz
  next hz =>
    exact decode_eq_error_iff.mpr
      (invalidWord_of_digit0 (by omega) (by simp [hz, hcls, hret]))

/-- Two zero bytes run as a NOP (R60, R118). -/
theorem step_zeroBytes {s : State} (hs : s.status = .running) (hp : s.pc.toNat ≤ 0xFFE)
    (hhi : s.mem.read s.pc.toNat = 0#8) (hlo : s.mem.read (s.pc.toNat + 1) = 0#8) :
    step s = .next (fetched s) := by
  have hf := fetch_of_le hp
  rw [hhi, hlo] at hf
  exact (step_of_decode_ok hs hf (decode_encode .nop)).trans (exec_nop s)

/-- Settles O30: the zero row, the fetch's advance alone, and a Step inside and past memory. -/
theorem nopOnlyAdvances : Obligations.NopOnlyAdvances := by
  refine ⟨fun op => decode_digit0, fun s => ⟨_, exec_nop s, rfl, ?_⟩,
    fun s => step_zeroBytes, fun s hs hp => ?_⟩
  · exact FrameExcept.fetched (may := fun p => p = .pc) rfl s
  · have hge : 4096 ≤ s.pc.toNat := by simp [hp]
    have h := step_fetch_outside hs (Nat.le_trans (by decide) hge)
    rwa [firstOutside_of_ge hge, hp] at h

/-! ### RET and CALL (R61, R63) -/

/-- RET with `k + 1` entries in use pops entry `k` (R61). -/
theorem exec_ret_succ {s : State} {k : Fin 16} (h : s.sp.val = k.val + 1) :
    exec .ret s = .next { s with sp := k.castSucc, pc := s.getStack k } := by
  have hk : s.sp.val - 1 = k.val := by omega
  rw [exec_ret_pos (by omega)]
  simp only [hk]
  rfl

/-- Settles O31: the empty stack, the pop, and the fetch from where it sent PC. -/
theorem retPopsOrUnderflows : Obligations.RetPopsOrUnderflows :=
  ⟨fun _ => decode_rowWord 0x00EE#16 rfl, fun _ => exec_ret_empty,
    fun _ _ hk => ⟨_, exec_ret_succ hk, rfl, rfl, rfl, rfl, rfl, rfl, rfl,
      fun hs hp => step_fetch_outside hs hp⟩⟩

/-- Settles O34: the entry the RET pops is the one the CALL pushed. -/
theorem retUndoesCall : Obligations.RetUndoesCall := by
  intro nnn s t u room hcall hsp hstack
  cases (exec_call_lt nnn room).symm.trans hcall
  have hentry : u.getStack ⟨s.sp.val, room⟩ = s.pc + 2#16 := by
    rw [State.getStack, hstack]
    exact Vector.getElem_set_self room
  exact ⟨_, exec_ret_succ (k := ⟨s.sp.val, room⟩) (congrArg Fin.val hsp), hentry, rfl⟩

/-- Settles O33: the full stack, and the push, which a RET undoes. -/
theorem callPushesOrOverflows : Obligations.CallPushesOrOverflows := by
  refine ⟨fun op => decode_rowNNN 0x2#4 rfl, fun nnn s => exec_call_full nnn, ?_⟩
  rintro nnn s ⟨k, room⟩ (rfl : s.sp.val = k)
  have hcall := exec_call_lt nnn room
  obtain ⟨u, hu, hpc, -⟩ := retUndoesCall nnn s _ _ room hcall rfl rfl
  refine ⟨_, hcall, Vector.getElem_set_self room, rfl, toNat_addrOf nnn, rfl, fun j hj => ?_,
    u, hu, hpc⟩
  exact Vector.getElem_set_ne room j.isLt fun h => hj (Fin.ext h.symm)

/-! ### JP and JP V0 (R62, R68) -/

/-- Settles O32: the target, the fetch from 0xFFF, and the self-jump. -/
theorem jpJumps : Obligations.JpJumps := by
  refine ⟨fun op => decode_rowNNN 0x1#4 rfl,
    fun nnn s => ⟨_, exec_jp nnn s, toNat_addrOf nnn, rfl, fun hs htop => ?_, fun hself => ?_⟩⟩
  · have hp : ((fetched s).setPc (addrOf nnn)).pc.toNat = 0xFFF := (toNat_addrOf nnn).trans htop
    have h := step_fetch_outside (s := (fetched s).setPc (addrOf nnn)) hs (Nat.le_of_eq hp.symm)
    rwa [firstOutside_of_lt (by omega)] at h
  · have hpc : addrOf nnn = s.pc := BitVec.eq_of_toNat_eq ((toNat_addrOf nnn).trans hself.symm)
    rw [hpc]
    rfl

/-- Settles O37: the sum as a number, and the fetch from it. -/
theorem jpV0JumpsUnreduced : Obligations.JpV0JumpsUnreduced :=
  fun nnn s => ⟨_, exec_jpV0 nnn s, toNat_addrOf_add_wideOf nnn _, rfl,
    fun hs hp => step_fetch_outside hs hp⟩

/-! ### Skips (R64–R67) -/

/-- The skip of the SE pair (R64, R66). -/
theorem skipIf_beq_pc (a b : Byte) (s : State) :
    (skipIf (a == b) (fetched s)).pc = if a = b then s.pc + 4#16 else s.pc + 2#16 := by
  simp only [skipIf_fetched_pc, beq_iff_eq]

/-- The skip of the SNE pair (R65, R67). -/
theorem skipIf_bne_pc (a b : Byte) (s : State) :
    (skipIf (a != b) (fetched s)).pc = if a = b then s.pc + 2#16 else s.pc + 4#16 := by
  simp only [skipIf_fetched_pc, bne_iff_ne, ne_eq, ite_not]

/-- Settles O35: the two rows and the two skips. -/
theorem byteComparesSkip : Obligations.ByteComparesSkip :=
  ⟨fun _ => decode_rowXNN 0x3#4 rfl, fun _ => decode_rowXNN 0x4#4 rfl, fun x nn s =>
    ⟨⟨_, exec_seByte x nn s, skipIf_v _ _, skipIf_beq_pc _ _ s⟩,
      ⟨_, exec_sneByte x nn s, skipIf_v _ _, skipIf_bne_pc _ _ s⟩⟩⟩

/-- The rows of digit 5 and of digit 9 have one instruction, with N = 0 (R42, R43). -/
theorem decode_compareRow {op : Word} {i : Instr} {d : Nibble} (hd59 : d = 0x5#4 ∨ d = 0x9#4)
    (hi : encode i = formXYN d (numX op) (numY op) 0x0#4) (hd : op.toNat / 4096 = d.toNat) :
    decode op = if op.toNat % 16 = 0 then .ok i else .error (.invalidOpcode op) := by
  split
  next hn => exact decode_rowXY d 0x0#4 hi hd hn
  next hn =>
    apply decode_eq_error_iff.mpr
    rcases hd59 with rfl | rfl <;> simp [InvalidWord, hd, hn]

/-- Settles O36: the two rows and the two skips, each decided by the equality that X = Y gives. -/
theorem registerComparesSkip : Obligations.RegisterComparesSkip := by
  refine ⟨fun op => decode_compareRow (.inl rfl) rfl, fun op => decode_compareRow (.inr rfl) rfl,
    fun x y s => ⟨⟨_, exec_seReg x y s, skipIf_v _ _, skipIf_beq_pc _ _ s, fun hxy => ?_⟩,
      ⟨_, exec_sneReg x y s, skipIf_v _ _, skipIf_bne_pc _ _ s, fun hxy => ?_⟩⟩⟩
  · rw [skipIf_beq_pc, if_pos (congrArg s.getV hxy)]
  · rw [skipIf_bne_pc, if_pos (congrArg s.getV hxy)]

end Sys2Proof.Machine

/-! ALU (spec/42_alu.md): the value each instruction leaves in VX, as a number or bit by bit, and the flag
it leaves in VF. -/

namespace Sys2Proof.Machine

/-! ### A result and its flag (R57, D10) -/

/-- The flag is the last write, so it is what VF holds for every destination, F included. -/
@[simp] theorem getV_vf_setResultAndFlag (s : State) (x : Nibble) (r f : Byte) :
    (setResultAndFlag s x r f).getV 0xF#4 = f :=
  getV_setV_self (s.setV x r) vf f

theorem getV_setResultAndFlag_self (s : State) {x : Nibble} (r f : Byte) (hx : x ≠ 0xF#4) :
    (setResultAndFlag s x r f).getV x = r :=
  (getV_setV_ne (s.setV x r) f hx).trans (getV_setV_self s x r)

/-- The result as a number, where the flag does not take its place. -/
theorem toNat_getV_setResultAndFlag_self (s : State) {x : Nibble} {r : Byte} {n : Nat} (f : Byte)
    (hr : r.toNat = n) (hx : x ≠ 0xF#4) : ((setResultAndFlag s x r f).getV x).toNat = n := by
  rw [getV_setResultAndFlag_self s r f hx, hr]

/-! ### The arithmetic laws (R70) -/

theorem toNat_byte_sub (a b : Byte) : (a - b).toNat = (a.toNat + 256 - b.toNat) % 256 := by
  have := b.isLt
  rw [BitVec.toNat_sub]
  congr 1
  omega

theorem toNat_byte_shr (a : Byte) : (a >>> 1).toNat = a.toNat / 2 := by
  rw [BitVec.toNat_ushiftRight, Nat.shiftRight_eq_div_pow, Nat.pow_one]

theorem toNat_byte_shl (a : Byte) : (a <<< 1).toNat = a.toNat * 2 % 256 := by
  rw [BitVec.toNat_shiftLeft, Nat.shiftLeft_eq, Nat.pow_one]

theorem flagByte_decide (p : Prop) [Decidable p] :
    flagByte (decide p) = if p then 1#8 else 0#8 := by
  simp only [flagByte, decide_eq_true_eq]

theorem carryOf_eq (a b : Byte) :
    carryOf a b = if a.toNat + b.toNat > 255 then 1#8 else 0#8 := flagByte_decide _

theorem noBorrowOf_eq (a b : Byte) :
    noBorrowOf a b = if a.toNat ≥ b.toNat then 1#8 else 0#8 := flagByte_decide _

theorem toNat_flagByte (c : Bool) : (flagByte c).toNat = c.toNat := by
  cases c <;> rfl

theorem toNat_shrOut (a : Byte) : (shrOut a).toNat = a.toNat % 2 := by
  rw [shrOut, toNat_flagByte, BitVec.getLsbD, Nat.toNat_testBit, Nat.pow_zero, Nat.div_one]

/-- Bit 7 is all that is left of a byte above its low seven bits. -/
theorem toNat_shlOut (a : Byte) : (shlOut a).toNat = a.toNat / 128 := by
  have := a.isLt
  rw [shlOut, toNat_flagByte, BitVec.getLsbD, Nat.toNat_testBit]
  omega

/-! ### Shifts, sum and differences (R77–R81) -/

/-- Settles O42: the shifted result, the bit shifted out, and an outcome in which Y does not occur. -/
theorem shiftsSetTheBitShiftedOut : Obligations.ShiftsSetTheBitShiftedOut := by
  refine fun x y s => ⟨⟨_, exec_shr x y s, rfl, ?_, ?_, fun z => exec_shr x z s⟩,
    ⟨_, exec_shl x y s, rfl, ?_, ?_, fun z => exec_shl x z s⟩⟩
  · exact toNat_getV_setResultAndFlag_self _ _ (toNat_byte_shr _)
  · rw [getV_vf_setResultAndFlag, toNat_shrOut]
  · exact toNat_getV_setResultAndFlag_self _ _ (toNat_byte_shl _)
  · rw [getV_vf_setResultAndFlag, toNat_shlOut]

/-- Settles O40: the sum, and the carry of the unbounded sum. -/
theorem addSetsCarry : Obligations.AddSetsCarry := by
  refine fun x y s => ⟨_, exec_addReg x y s, rfl, ?_, ?_⟩
  · exact toNat_getV_setResultAndFlag_self _ _ (BitVec.toNat_add _ _)
  · rw [getV_vf_setResultAndFlag, carryOf_eq]

/-- Settles O41: 8XY7 is 8XY5 with its operands exchanged. -/
theorem subtractionsSetNoBorrow : Obligations.SubtractionsSetNoBorrow := by
  refine fun x y s => ⟨⟨_, exec_subReg x y s, rfl, ?_, ?_⟩, ⟨_, exec_subnReg x y s, rfl, ?_, ?_⟩⟩
  · exact toNat_getV_setResultAndFlag_self _ _ (toNat_byte_sub _ _)
  · rw [getV_vf_setResultAndFlag, noBorrowOf_eq]
  · exact toNat_getV_setResultAndFlag_self _ _ (toNat_byte_sub _ _)
  · rw [getV_vf_setResultAndFlag, noBorrowOf_eq]

/-! ### One register written (R71–R76, R82) -/

/-- The fetch and one register write leave every other register (R58). -/
theorem getV_setV_fetched_ne (s : State) (x : Nibble) (b : Byte) (z : Nibble) (hz : z ≠ x) :
    ((fetched s).setV x b).getV z = s.getV z :=
  getV_setV_ne (fetched s) b hz

/-- Settles O38: the three rows, the value written and the registers left. -/
theorem loadsAndByteAdd : Obligations.LoadsAndByteAdd := by
  refine ⟨fun _ => decode_rowXNN 0x6#4 rfl, fun _ => decode_rowXNN 0x7#4 rfl,
    fun _ => decode_rowXY 0x8#4 0x0#4 rfl, fun x y nn s => ⟨?_, ?_, ?_⟩⟩
  · exact ⟨_, exec_ldByte x nn s, rfl, getV_setV_self _ x _, getV_setV_fetched_ne s x _,
      rfl, rfl, rfl, rfl⟩
  · refine ⟨_, exec_addByte x nn s, rfl, ?_, getV_setV_fetched_ne s x _, rfl, rfl, rfl, rfl⟩
    rw [getV_setV_self, BitVec.toNat_add]
  · exact ⟨_, exec_ldReg x y s, rfl, getV_setV_self _ x _, getV_setV_fetched_ne s x _,
      rfl, rfl, rfl, rfl⟩

/-- Settles O39: the value written, bit by bit, and the registers left. -/
theorem logicIsBitwise : Obligations.LogicIsBitwise := by
  refine fun x y s => ⟨⟨_, exec_orReg x y s, rfl, fun b => ?_, getV_setV_fetched_ne s x _⟩,
    ⟨_, exec_andReg x y s, rfl, fun b => ?_, getV_setV_fetched_ne s x _⟩,
    ⟨_, exec_xorReg x y s, rfl, fun b => ?_, getV_setV_fetched_ne s x _⟩⟩
  · rw [getV_setV_self, BitVec.getLsbD_or]
  · rw [getV_setV_self, BitVec.getLsbD_and]
  · rw [getV_setV_self, BitVec.getLsbD_xor]

/-- Settles O43: the byte drawn, masked, and the registers left. -/
theorem rndMasksAFreshByte : Obligations.RndMasksAFreshByte := by
  refine fun x nn s => ⟨_, exec_rnd x nn s, rfl, rfl, fun b => ?_, fun hnn => ?_, fun z hz => ?_⟩
  · rw [getV_setV_self, BitVec.getLsbD_and]
  · rw [getV_setV_self, hnn, BitVec.and_zero]
  · rw [getV_setV_ne _ _ hz, drawByte_getV, fetched_getV]

end Sys2Proof.Machine

/-! Index register and memory moves (spec/43_index_memory.md): I as a number, the bytes FX33 and FX55 leave
from I on, and the registers FX65 loads. -/

namespace Sys2Proof.Machine

/-! ### I as a number (R83–R85) -/

/-- 255 times 5 fits 16 bits, so the glyph address is not reduced (R85). -/
theorem toNat_glyphAddr (b : Byte) : (glyphAddr b).toNat = b.toNat * 5 := by
  have := b.isLt
  rw [glyphAddr, BitVec.toNat_ofNat, Nat.mod_eq_of_lt (by omega)]

/-- Settles O44: the two rows, and the two values of I. -/
theorem indexLoads : Obligations.IndexLoads := by
  refine ⟨fun _ => decode_rowNNN 0xA#4 rfl, fun _ => decode_rowX 0xF#4 0x29#8 rfl,
    fun nnn s => ⟨_, exec_ldI nnn s, rfl, toNat_addrOf nnn, ?_, rfl⟩,
    fun x s => ⟨_, exec_ldFVx x s, rfl, toNat_glyphAddr _, rfl⟩⟩
  exact Nat.le_of_lt_succ (toNat_addrOf_lt nnn)

/-- Settles O45: a sum that fits is I, the other is the fault's. -/
theorem addIOrOverflow : Obligations.AddIOrOverflow := by
  refine fun x s => ⟨fun hfit => ?_, fun hover => (exec_addIVx x s).trans (if_pos hover)⟩
  refine ⟨_, (exec_addIVx x s).trans (if_neg (Nat.not_lt.mpr hfit)), rfl, ?_, rfl⟩
  rw [setI_i, BitVec.toNat_ofNat, Nat.mod_eq_of_lt (by omega)]

/-! ### The bytes stored (R86, R87) -/

/-- Byte `k` of the bytes copied to `a` reads back at `a + k` (R35). -/
theorem read_copyBytes_add (bs : List Byte) (m : Memory) (a : Nat) {k : Nat} (hk : k < bs.length) :
    (copyBytes m a bs).read (a + k) = bs.getD k 0#8 := by
  rw [read_copyBytes, if_pos (by omega), Nat.add_sub_cancel_left]

/-- The digits of a byte as numbers: hundreds, tens, ones (R86). -/
theorem toNat_bcdDigits (b : Byte) :
    ((bcdDigits b).getD 0 0#8).toNat = b.toNat / 100 ∧
      ((bcdDigits b).getD 1 0#8).toNat = b.toNat / 10 % 10 ∧
      ((bcdDigits b).getD 2 0#8).toNat = b.toNat % 10 := by
  have := b.isLt
  refine ⟨?_, ?_, ?_⟩ <;> exact (BitVec.toNat_ofNat _ _).trans (Nat.mod_eq_of_lt (by omega))

/-- Settles O46: the bytes read back are the digits, and the digits make up the byte. -/
theorem bcdStoresDigits : Obligations.BcdStoresDigits := by
  refine fun x s => ⟨fun hin => ?_, fun hout => (exec_ldBVx x s).trans (if_neg (by omega))⟩
  refine ⟨_, (exec_ldBVx x s).trans (if_pos (by omega)), rfl, rfl, ?_⟩
  have hread : ∀ k, k < 3 → (copyBytes s.mem s.i.toNat (bcdDigits (s.getV x))).read (indexAddr s k) =
      (bcdDigits (s.getV x)).getD k 0#8 := fun k => read_copyBytes_add (bcdDigits (s.getV x)) s.mem _
  obtain ⟨hundreds, tens, ones⟩ := toNat_bcdDigits (s.getV x)
  have := (s.getV x).isLt
  simp only [hread 0 (by decide), hread 1 (by decide), hread 2 (by decide), hundreds, tens, ones]
  omega

/-- Settles O47: the bytes read back are the registers. -/
theorem storeRegistersStores : Obligations.StoreRegistersStores := by
  refine fun x s => ⟨fun hin => ?_, fun hout => (exec_storeRegs x s).trans (if_neg (by omega))⟩
  exact ⟨_, (exec_storeRegs x s).trans (if_pos (by omega)), rfl, rfl,
    fun k hk => read_copyBytes_regsUpTo s s.mem s.i.toNat hk⟩

/-! ### The registers loaded (R88) -/

/-- Loading V0 to VX gives register `y` byte `y`, and leaves the registers above VX. -/
theorem getV_setRegs_range (s : State) (x : Nibble) (byte : Nat → Byte) (y : Nibble) :
    (setRegs s 0 ((List.range (x.toNat + 1)).map byte)).getV y =
      if y.toNat ≤ x.toNat then byte y.toNat else s.getV y := by
  have hx := x.isLt
  have hlen : ((List.range (x.toNat + 1)).map byte).length = x.toNat + 1 := by simp
  rw [getV_setRegs _ _ _ (by omega), hlen]
  by_cases hy : y.toNat ≤ x.toNat
  · rw [if_pos (by omega), if_pos hy]
    simp [List.getD, Nat.lt_succ_of_le hy]
  · rw [if_neg (by omega), if_neg hy]

/-- Settles O48: the registers up to VX hold the bytes, the others their values. -/
theorem loadRegistersLoads : Obligations.LoadRegistersLoads := by
  refine fun x s => ⟨fun hin => ?_, fun hout => (exec_loadRegs x s).trans (if_neg (by omega))⟩
  refine ⟨_, (exec_loadRegs x s).trans (if_pos (by omega)), ?_, ?_, fun k hk => ?_, fun z hz => ?_⟩
  · rw [setRegs_frame, fetched_pc]
  · rw [setRegs_frame, fetched_i]
  · have hx := x.isLt
    have hk16 : (BitVec.ofNat 4 k).toNat = k := Nat.mod_eq_of_lt (by omega)
    rw [getV_setRegs_range, hk16, if_pos hk, indexAddr]
  · rw [getV_setRegs_range, if_neg (Nat.not_le.mpr hz), fetched_getV]

/-- Settles O49: an FX65 loads what memory holds from I on, which is what the FX55 stored there. -/
theorem loadRestoresStoredRegisters : Obligations.LoadRestoresStoredRegisters := by
  intro x s t u hin hstore hmem hi
  obtain ⟨t', hstore', -, hi', hstored⟩ := (storeRegistersStores x s).1 hin
  cases hstore'.symm.trans hstore
  have hui : u.i = s.i := hi.trans hi'
  obtain ⟨w, hload, -, -, hloaded, -⟩ := (loadRegistersLoads x u).1 (by rwa [hui])
  refine ⟨w, hload, fun k hk => ?_⟩
  calc w.getV (BitVec.ofNat 4 k)
      _ = u.mem.read (indexAddr u k) := hloaded k hk
      _ = t.mem.read (indexAddr s k) := by rw [hmem, indexAddr, hui, indexAddr]
      _ = s.getV (BitVec.ofNat 4 k) := hstored k hk

end Sys2Proof.Machine

/-! Framebuffer (spec/44_display.md): the pixels CLS and DXYN leave, the collision flag, and a sprite drawn
twice at one place. -/

namespace Sys2Proof.Machine

/-! ### CLS (R91) -/

/-- Settles O50: the word, and the blank screen over the fetched state. -/
theorem clsClearsEveryPixel : Obligations.ClsClearsEveryPixel :=
  ⟨fun _ => decode_rowWord 0x00E0#16 rfl,
    fun s => ⟨_, exec_cls s, rfl, pixel_blank, rfl, rfl, rfl, rfl, rfl, rfl, rfl⟩⟩

/-! ### A completed DXYN (R89, R90, R92) -/

/-- The pixel is one the sprite of a DXYN in `s` reaches. -/
abbrev DrwHits (x y n : Nibble) (s : State) (px py : Nat) : Prop :=
  SpriteHits s (s.getV x).toNat (s.getV y).toNat n.toNat px py

/-- The screen a DXYN leaves when its rows exist, and whether it erased a pixel. -/
def drwDrawing (x y n : Nibble) (s : State) : Drawing :=
  drawRows (s.screen, false) (s.getV x).toNat (s.getV y).toNat (spriteRows s n.toNat)

/-- The state a DXYN leaves when its rows exist. -/
def drawn (x y n : Nibble) (s : State) : State :=
  setFlag { fetched s with screen := (drwDrawing x y n s).1 } (flagByte (drwDrawing x y n s).2)

theorem exec_drw_of_rows_inside {x y n : Nibble} {s : State}
    (hin : n.toNat = 0 ∨ s.i.toNat + n.toNat ≤ 4096) :
    exec (.drw x y n) s = .next (drawn x y n s) :=
  (exec_drw x y n s).trans (if_pos hin)

theorem SpriteHits.pixel_lt {s : State} {ox oy n px py : Nat} (h : SpriteHits s ox oy n px py) :
    px < 64 ∧ py < 32 := by
  obtain ⟨r, c, -, -, -, rfl, rfl⟩ := h
  exact ⟨Nat.mod_lt _ (by decide), Nat.mod_lt _ (by decide)⟩

theorem rowsHit_spriteRows_of_lt {s : State} {x y n px py : Nat} (hx : px < 64) (hy : py < 32) :
    RowsHit x y (spriteRows s n) px py ↔ SpriteHits s x y n px py := by
  rw [rowsHit_spriteRows, Nat.mod_eq_of_lt hx, Nat.mod_eq_of_lt hy]

/-- A sprite has at most 15 rows, so no two of them wrap onto one row of the screen (R89, R92). -/
theorem spriteRows_length_le (s : State) (n : Nibble) : (spriteRows s n.toNat).length ≤ 32 := by
  have := n.isLt
  rw [spriteRows_length]
  omega

/-- DXYN inverts the pixels its sprite reaches and leaves the others (R92). -/
theorem drawn_pixel (x y n : Nibble) (s : State) {px py : Nat} (hx : px < 64) (hy : py < 32) :
    (DrwHits x y n s px py → (drawn x y n s).screen.pixel px py = !s.screen.pixel px py) ∧
      (¬ DrwHits x y n s px py → (drawn x y n s).screen.pixel px py = s.screen.pixel px py) := by
  have h := drawRows_pixel _ (s.screen, false) (s.getV x).toNat (s.getV y).toNat
    (spriteRows_length_le s n) px py
  rwa [rowsHit_spriteRows_of_lt hx hy] at h

/-- The sprite meets a lit pixel on the 64 by 32 screen when its rows do at any coordinates (R89). -/
theorem exists_rowsHit_lit_iff {s : State} {x y n : Nat} :
    (∃ px py, RowsHit x y (spriteRows s n) px py ∧ s.screen.pixel px py = true) ↔
      ∃ px py, SpriteHits s x y n px py ∧ s.screen.pixel px py = true := by
  constructor
  · rintro ⟨px, py, hhit, hlit⟩
    exact ⟨px % 64, py % 32, rowsHit_spriteRows.mp hhit, (pixel_mod s.screen px py).trans hlit⟩
  · rintro ⟨px, py, hhit, hlit⟩
    exact ⟨px, py, (rowsHit_spriteRows_of_lt hhit.pixel_lt.1 hhit.pixel_lt.2).mpr hhit, hlit⟩

/-- DXYN erases a pixel exactly when its sprite reaches a lit one (R92). -/
theorem drwDrawing_erased (x y n : Nibble) (s : State) :
    (drwDrawing x y n s).2 = true ↔
      ∃ px py, DrwHits x y n s px py ∧ s.screen.pixel px py = true := by
  rw [drwDrawing, drawRows_erased _ _ _ _ (spriteRows_length_le s n), exists_rowsHit_lit_iff]
  exact or_iff_right Bool.false_ne_true

theorem drawn_getV_vf (x y n : Nibble) (s : State) :
    (drawn x y n s).getV 0xF#4 = flagByte (drwDrawing x y n s).2 :=
  getV_setV_self _ vf _

theorem flagByte_eq_one {c : Bool} : flagByte c = 1#8 ↔ c = true := by
  cases c <;> decide

/-- VF = 1 after a DXYN exactly when its sprite reaches a pixel lit before it (R92). -/
theorem drawn_getV_vf_eq_one (x y n : Nibble) (s : State) :
    (drawn x y n s).getV 0xF#4 = 1#8 ↔
      ∃ px py, DrwHits x y n s px py ∧ s.screen.pixel px py = true := by
  rw [drawn_getV_vf, flagByte_eq_one, drwDrawing_erased]

/-- Settles O51: the state drawn, its pixels and its flag, and the fault of a row outside memory. -/
theorem drwInvertsTheSpritePixels : Obligations.DrwInvertsTheSpritePixels := by
  refine fun x y n s => ⟨fun hin => ?_, fun hpos hout => (exec_drw x y n s).trans (if_neg (by omega))⟩
  refine ⟨_, exec_drw_of_rows_inside hin, rfl, fun px py hx hy => drawn_pixel x y n s hx hy,
    (drawn_getV_vf_eq_one x y n s).mpr, fun hno => ?_⟩
  rw [drawn_getV_vf]
  refine (flagByte_eq _).resolve_right fun hone => hno ?_
  exact (drwDrawing_erased x y n s).mp (flagByte_eq_one.mp hone)

/-! ### A sprite drawn twice (S7) -/

/-- DXYN writes no register but VF (R92). -/
theorem drawn_getV_ne (x y n : Nibble) (s : State) {z : Nibble} (hz : z ≠ 0xF#4) :
    (drawn x y n s).getV z = s.getV z :=
  getV_setV_ne _ _ hz

/-- A DXYN repeated after itself reaches the same pixels: I, memory and the origin stay (R90, R92). -/
theorem drwHits_drawn {x y n : Nibble} (s : State) (hx : x ≠ 0xF#4) (hy : y ≠ 0xF#4)
    (px py : Nat) : DrwHits x y n (drawn x y n s) px py ↔ DrwHits x y n s px py := by
  rw [DrwHits, drawn_getV_ne x y n s hx, drawn_getV_ne x y n s hy]
  exact Iff.rfl

theorem drawn_drawn_pixel {x y n : Nibble} (s : State) (hx : x ≠ 0xF#4) (hy : y ≠ 0xF#4)
    {px py : Nat} (hpx : px < 64) (hpy : py < 32) :
    (drawn x y n (drawn x y n s)).screen.pixel px py = s.screen.pixel px py := by
  obtain ⟨hit₁, miss₁⟩ := drawn_pixel x y n s hpx hpy
  obtain ⟨hit₂, miss₂⟩ := drawn_pixel x y n (drawn x y n s) hpx hpy
  rw [drwHits_drawn s hx hy] at hit₂ miss₂
  by_cases h : DrwHits x y n s px py
  · rw [hit₂ h, hit₁ h, Bool.not_not]
  · rw [miss₂ h, miss₁ h]

/-- Among the pixels it reaches, the second draw finds lit those the first found unlit. -/
theorem drawn_drawn_getV_vf {x y n : Nibble} (s : State) (hx : x ≠ 0xF#4) (hy : y ≠ 0xF#4) :
    (drawn x y n (drawn x y n s)).getV 0xF#4 = 1#8 ↔
      ∃ px py, DrwHits x y n s px py ∧ s.screen.pixel px py = false := by
  rw [drawn_getV_vf_eq_one]
  refine exists_congr fun px => exists_congr fun py => ?_
  rw [drwHits_drawn s hx hy]
  refine and_congr_right fun h => ?_
  rw [(drawn_pixel x y n s h.pixel_lt.1 h.pixel_lt.2).1 h, Bool.not_eq_true']

/-- Settles O52: I stays, so the second draw completes too, over the same pixels. -/
theorem drawingTwiceRestores : Obligations.DrawingTwiceRestores := by
  intro x y n s t hx hy hin h
  cases (exec_drw_of_rows_inside hin).symm.trans h
  have hin' : n.toNat = 0 ∨ (drawn x y n s).i.toNat + n.toNat ≤ 4096 := hin
  exact ⟨_, exec_drw_of_rows_inside hin', fun _ _ => drawn_drawn_pixel s hx hy,
    drawn_drawn_getV_vf s hx hy⟩

end Sys2Proof.Machine

/-! Keypad and timers (spec/45_keys_timers.md): the key FX0A takes, the key skips, and the moves between VX
and the timers. -/

namespace Sys2Proof.Machine

/-! ### FX0A (R98) -/

/-- A pressed key with none pressed below it is the one the scan finds (R98). -/
theorem leastPressed_eq_some_of_least {s : State} {k : Nibble} (hk : s.getKey k = true)
    (hlow : ∀ j : Nibble, j.toNat < k.toNat → s.getKey j = false) : leastPressed s = some k := by
  cases h : leastPressed s with
  | none => exact absurd hk (by simp [leastPressed_eq_none.mp h k])
  | some j =>
    obtain ⟨hj, hjlow⟩ := leastPressed_eq_some h
    have hkj : ¬ k.toNat < j.toNat := fun hlt => by simp [hjlow k hlt] at hk
    have hjk : ¬ j.toNat < k.toNat := fun hlt => by simp [hlow j hlt] at hj
    exact congrArg some (BitVec.eq_of_toNat_eq (by omega))

/-- Settles O55: the scan's answer, key or none, decides the cycle. -/
theorem waitForKeyPolls : Obligations.WaitForKeyPolls := by
  refine fun x s => ⟨fun k hk hlow => ?_,
    fun hnone => exec_ldVxK_none (leastPressed_eq_none.mpr hnone)⟩
  refine ⟨_, exec_ldVxK_some (leastPressed_eq_some_of_least hk hlow), rfl, ?_,
    getV_setV_fetched_ne s x _⟩
  rw [getV_setV_self, BitVec.toNat_setWidth_of_le (by decide)]

/-! ### Key skips (R93, R94) -/

/-- A byte that names a key is that key's index when cut to 4 bits (R93). -/
theorem setWidth_eq_of_toNat_eq {b : Byte} {k : Nibble} (h : b.toNat = k.toNat) :
    b.setWidth 4 = k :=
  BitVec.eq_of_toNat_eq (by rw [BitVec.toNat_setWidth, h, Nat.mod_eq_of_lt k.isLt])

theorem exec_skp_of_key {x k : Nibble} {s : State} (h : (s.getV x).toNat = k.toNat) :
    exec (.skp x) s = .next (skipIf (s.getKey k) (fetched s)) := by
  rw [exec_skp_of_le (by omega), setWidth_eq_of_toNat_eq h]

theorem exec_sknp_of_key {x k : Nibble} {s : State} (h : (s.getV x).toNat = k.toNat) :
    exec (.sknp x) s = .next (skipIf (!s.getKey k) (fetched s)) := by
  rw [exec_sknp_of_le (by omega), setWidth_eq_of_toNat_eq h]

/-- Settles O53: the skip on the key VX names, and the fault of a VX that names none. -/
theorem keySkipsOrFault : Obligations.KeySkipsOrFault := by
  refine fun x s => ⟨fun k hk => ⟨⟨_, exec_skp_of_key hk, skipIf_v _ _, skipIf_fetched_pc _ s⟩,
    ⟨_, exec_sknp_of_key hk, skipIf_v _ _, ?_⟩⟩, fun h => ⟨exec_skp_of_gt h, exec_sknp_of_gt h⟩⟩
  simp only [skipIf_fetched_pc, Bool.not_eq_true', ← Bool.not_eq_true, ite_not]

/-! ### Timer moves (R95–R97) -/

/-- Settles O54: the three rows, the register or timer written and what the move leaves. -/
theorem timerMoves : Obligations.TimerMoves := by
  refine ⟨fun op hF => ⟨decode_rowX 0xF#4 0x07#8 rfl hF, decode_rowX 0xF#4 0x15#8 rfl hF,
    decode_rowX 0xF#4 0x18#8 rfl hF⟩, fun x s => ⟨?_, ?_, ?_⟩⟩
  · exact ⟨_, exec_ldVxDT x s, rfl, getV_setV_self _ x _, rfl, getV_setV_fetched_ne s x _⟩
  · exact ⟨_, exec_ldDTVx x s, rfl, rfl, rfl, rfl⟩
  · exact ⟨_, exec_ldSTVx x s, rfl, rfl, rfl, rfl⟩

end Sys2Proof.Machine

/-! Faults and the host's events (spec/60_exceptions.md): the fault each instruction may raise, what a Tick
and a Load do, what ends a halt, and the invariant over every run of events. -/

namespace Sys2Proof.Machine

/-! ### Runs of events (R112) -/

/-- A property that every event of a run keeps holds after the run. -/
theorem runEvents_induction {P : State → Prop} {es : List Event} {s : State} (h : P s)
    (hkeep : ∀ e ∈ es, ∀ t, P t → P (event e t).1) : P (runEvents es s) := by
  induction es generalizing s with
  | nil => exact h
  | cons e es ih =>
    exact ih (hkeep e List.mem_cons_self s h) fun e' he' => hkeep e' (List.mem_cons_of_mem e he')

/-! ### One event: Tick and Load by the status (R106, R113) -/

/-- A running core's Tick counts both timers down, each on its own (R106). -/
theorem tick_running {s : State} (hs : s.status = .running) :
    tick s = (s.setDt (countDown s.dt)).setSt (countDown s.st) := by
  rw [tick]
  split
  next f hf => cases hs.symm.trans hf
  next => rfl

/-- A halted core's timers stand (R104). -/
theorem tick_halted {s : State} {f : Fault} (hs : s.status = .halted f) : tick s = s := by
  rw [tick, hs]

theorem load_tooLong_running {bytes : List Byte} {s : State} (hlen : 3584 < bytes.length)
    (hs : s.status = .running) :
    load bytes s =
      (takeFault (.romTooLarge bytes.length) s, .fault (.romTooLarge bytes.length)) := by
  rw [load_of_gt s hlen, hs]

/-- An earlier fault is kept (D21). -/
theorem load_tooLong_halted {bytes : List Byte} {s : State} {f : Fault} (hlen : 3584 < bytes.length)
    (hs : s.status = .halted f) : load bytes s = (s, .fault (.romTooLarge bytes.length)) := by
  rw [load_of_gt s hlen, hs]

/-- A program that fits reads back from 0x200, whatever the status is (R104, R113). -/
theorem load_read {bytes : List Byte} (s : State) (hlen : bytes.length ≤ 3584) {k : Nat}
    (hk : k < bytes.length) : (load bytes s).1.mem.read (0x200 + k) = bytes.getD k 0#8 := by
  rw [load_of_le s hlen]
  exact read_copyBytes_add bytes s.mem 0x200 hk

/-! ### The invariant over every run -/

/-- The reset state meets the invariant, whatever the draw counter is (R117, R118). -/
theorem runInv_resetCore (s : State) : RunInv (resetCore s) := by
  have hpc : (0x200#16).toNat < 0x10FF := by decide
  refine ⟨reset_mem_wf, hpc, fun k => ?_, nofun⟩
  have hzero : (resetCore s).getStack k = 0#16 := Vector.getElem_replicate k.isLt
  rw [hzero]
  decide

/-- A Load writes up to 0xFFF at most, or halts the core with a legal record (R113). -/
theorem RunInv.load {s : State} (h : RunInv s) (bytes : List Byte) : RunInv (load bytes s).1 := by
  rcases Nat.lt_or_ge 3584 bytes.length with hlong | hfits
  · cases hs : s.status with
    | running => rw [load_tooLong_running hlong hs]; exact h.takeFault hlong
    | halted f => rw [load_tooLong_halted hlong hs]; exact h
  · obtain ⟨hmem, hpc, hstack, hstatus⟩ := h
    rw [load_of_le s hfits]
    exact ⟨copyBytes_wf hmem (by omega), hpc, hstack, hstatus⟩

theorem RunInv.stepState {s : State} (h : RunInv s) : RunInv (stepState s) := by
  rcases stepState_cases s with hstay | hstep
  · rwa [hstay]
  · exact stepKeepsTheInvariant s _ h hstep

theorem RunInv.tick {s : State} (h : RunInv s) : RunInv (tick s) := by
  cases hs : s.status with
  | running => rw [tick_running hs]; exact h
  | halted f => rwa [tick_halted hs]

/-- Every event keeps the invariant. -/
theorem RunInv.event {s : State} (h : RunInv s) (e : Event) : RunInv (event e s).1 := by
  cases e with
  | reset => exact runInv_resetCore s
  | load bytes => exact h.load bytes
  | setKey k b => exact h
  | step => exact h.stepState
  | tick => exact h.tick
  | observe => exact h

/-- Settles O20: every event keeps the invariant, hence every list of events. -/
theorem runsKeepTheInvariant : Obligations.RunsKeepTheInvariant :=
  fun _ _ h => runEvents_induction h fun e _ _ ht => ht.event e

/-! ### The faults of a Step (R99, R100) -/

/-- Settles O11: each shape of an effect keeps the status, or is a fault the instruction may raise. -/
theorem faultsPerInstruction : Obligations.FaultsPerInstruction := by
  intro i s
  obtain ⟨t, hexec, he⟩ := exists_exec_effect i s
  exact ⟨t, hexec, he.status_cases⟩

/-- An instruction that halts a running core leaves a record R99 allows. -/
theorem Effect.faultRecordLegal {s t : State} {i : Instr} {f : Fault} (he : Effect s i t)
    (hs : s.status = .running) (ht : t.status = .halted f) : FaultRecordLegal f := by
  cases he with
  | fault g _ legal => cases ht; exact legal
  | _ => cases hs.symm.trans ht

/-- Settles O12: the fetch's address, the decoder's opcode, or the record of an instruction. -/
theorem faultRecordsAreLegal : Obligations.FaultRecordsAreLegal := by
  intro s t f hs hstep ht
  obtain ⟨-, ⟨g, hf, rfl⟩ | ⟨op, -, hd, rfl⟩ | ⟨op, i, -, -, hexec⟩⟩ := step_cases hstep
  · obtain ⟨-, rfl⟩ := fetch_error hf
    cases ht
    exact le_firstOutside _
  · cases ht
    exact hd
  · exact (exec_effect hexec).faultRecordLegal hs ht

/-! ### Tick (R106) -/

/-- Settles O22: the countdown of each timer, and the frame of the two writes. -/
theorem tickCountsDown : Obligations.TickCountsDown := by
  refine fun s => ⟨tick s, rfl, fun hs => ?_, fun f => tick_halted⟩
  rw [tick_running hs]
  exact ⟨toNat_countDown s.dt, toNat_countDown s.st,
    ((FrameExcept.refl _ s).setDt (.inl rfl) _).setSt (.inr rfl) _⟩

/-- Settles O23, by induction on the number of Ticks: each takes 1 and leaves the core running. -/
theorem ticksReachZeroAndStay : Obligations.TicksReachZeroAndStay := by
  intro n
  induction n with
  | zero => exact fun s _ => ⟨rfl, rfl⟩
  | succ n ih =>
    intro s hs
    have hfirst : runEvents (List.replicate (n + 1) .tick) s =
        runEvents (List.replicate n .tick) ((s.setDt (countDown s.dt)).setSt (countDown s.st)) := by
      rw [← tick_running hs]
      rfl
    obtain ⟨hdt, hst⟩ := ih ((s.setDt (countDown s.dt)).setSt (countDown s.st)) hs
    rw [hfirst, hdt, hst]
    simp only [setSt_dt, setDt_dt, setSt_st, toNat_countDown]
    omega

/-! ### Load (R113) -/

/-- Settles O24: the bytes read back and the frame of the copy; the two ways to refuse a long program. -/
theorem loadCopiesOrHalts : Obligations.LoadCopiesOrHalts := by
  refine fun bytes s => ⟨fun hlen => ⟨(load bytes s).1, ?_, fun k => load_read s hlen, ?_⟩,
    fun hlen hs => ?_, fun f hlen hs => ?_⟩
  · rw [event, load_of_le s hlen]
  · rw [load_of_le s hlen]
    exact (FrameExcept.refl _ s).copyBytes fun k hk => ⟨k, hk, rfl⟩
  · rw [event, load_tooLong_running hlen hs]
    rfl
  · rw [event, load_tooLong_halted hlen hs]

/-! ### The end of a halt (R103, R104) -/

/-- A halted core stays halted by its fault through a Load, whatever the program's length (D21). -/
theorem load_status_halted {s : State} {f : Fault} (bytes : List Byte) (hs : s.status = .halted f) :
    (load bytes s).1.status = .halted f := by
  rcases Nat.lt_or_ge 3584 bytes.length with hlong | hfits
  · rw [load_tooLong_halted hlong hs, hs]
  · rw [load_of_le s hfits, hs]

/-- Every event but Reset leaves a halted core halted by its fault. -/
theorem event_status_halted {e : Event} {s : State} {f : Fault} (he : e ≠ .reset)
    (hs : s.status = .halted f) : (event e s).1.status = .halted f := by
  cases e with
  | reset => exact absurd rfl he
  | load bytes => exact load_status_halted bytes hs
  | setKey k b => exact hs
  | step => exact (congrArg State.status (stepState_halted hs)).trans hs
  | tick => exact (congrArg State.status (tick_halted hs)).trans hs
  | observe => exact hs

/-- Settles O25: Step and Tick do nothing; the two writes read back; a run without Reset is made of events
that keep the halt. -/
theorem onlyResetEndsAHalt : Obligations.OnlyResetEndsAHalt := by
  refine fun s f hs => ⟨stepState_halted hs, tick_halted hs, rfl, fun k b => ⟨hs, ?_⟩,
    fun bytes => ⟨load_status_halted bytes hs, fun hlen k => load_read s hlen⟩, rfl,
    fun es hes => ?_⟩
  · exact (getKey_setKeyFlag s k k b).trans (if_pos rfl)
  · exact runEvents_induction (P := fun t => t.status = .halted f) hs fun e he t =>
      event_status_halted fun hreset => hes (hreset ▸ he)

/-! ### The idle state (R116) -/

/-- An idle core runs a jump to the address it is at (R62, R116). -/
theorem Idle.self_jump {s : State} (h : Idle s) :
    ∃ op nnn, fetch s = .ok op ∧ decode op = .ok (.jp nnn) ∧ s.pc.toNat = nnn.toNat := by
  obtain ⟨-, hp, hword⟩ := h
  have hdigit : (0x1000#16 + s.pc).toNat / 4096 = (0x1#4).toNat := by
    simp only [BitVec.toNat_add, BitVec.toNat_ofNat]
    omega
  refine ⟨_, _, hword ▸ fetch_of_le hp, decode_rowNNN 0x1#4 rfl hdigit, ?_⟩
  simp only [numNNN, BitVec.toNat_add, BitVec.toNat_ofNat]
  omega

/-- Settles O26: the jump leaves the state as it was, and a jump does not wait. -/
theorem idleStepsChangeNothing : Obligations.IdleStepsChangeNothing := by
  intro s h
  have ⟨hs, _, _⟩ := h
  obtain ⟨op, nnn, hf, hd, hself⟩ := h.self_jump
  obtain ⟨t, hexec, -, -, -, hsame⟩ := jpJumps.2 nnn s
  rw [hsame hself] at hexec
  have hstep : step s = .next s := (step_of_decode_ok hs hf hd).trans hexec
  refine ⟨hstep, stepResult_eq_ok_iff.mpr ⟨fun hwait => ?_, by rw [stepState_of_next hstep, hs]⟩⟩
  obtain ⟨⟨op', x, hf', hd'⟩, -⟩ := waits_iff.mp (stepResult_eq_waiting_iff.mp hwait).2
  cases hf.symm.trans hf'
  cases hd.symm.trans hd'

end Sys2Proof.Machine

/-! Reset and the boot sequence (spec/70_reset_and_hazards.md): what a Reset leaves in memory, the invariant
there, and the word the first fetch after a Reset and a Load reads. -/

namespace Sys2Proof.Machine

/-! ### The reset state (R117, R118) -/

/-- A Reset puts the font below 0x050 (R118). -/
theorem resetCore_read_font (s : State) {a : Nat} (ha : a < 80) :
    (resetCore s).mem.read a = Config.font a := if_pos ha

/-- Memory above the font is zero after a Reset (D13). -/
theorem resetCore_read_zero (s : State) {a : Nat} (ha : 80 ≤ a) : (resetCore s).mem.read a = 0#8 :=
  if_neg (Nat.not_lt.mpr ha)

/-- Settles O18: a Reset of the reset state leaves the reset state, draw counter included. -/
theorem resetMeetsTheInvariant : Obligations.ResetMeetsTheInvariant := runInv_resetCore State.reset

/-- Settles O21: each vector repeats its reset value, and memory lists no cell. -/
theorem resetSetsEveryValue : Obligations.ResetSetsEveryValue := by
  refine fun s => ⟨resetCore s, rfl, fun x => ?_, rfl, rfl, rfl, fun k => ?_, rfl, rfl, reset_getKey s,
    pixel_blank, rfl, fun a => resetCore_read_font s, fun a => resetCore_read_zero s⟩
  · exact Vector.getElem_replicate x.isLt
  · exact Vector.getElem_replicate k.isLt

/-! ### The boot sequence (R119, R121) -/

/-- The boot sequence replaces the reset state's memory and nothing else. -/
theorem boot_of_le {bytes : List Byte} (s : State) (hlen : bytes.length ≤ 3584) :
    boot bytes [] s =
      { resetCore s with mem := copyBytes (resetCore s).mem 0x200 bytes } :=
  congrArg Prod.fst (load_of_le (resetCore s) hlen)

/-- From 0x200 a booted core's memory holds the program, then zeros (R113, R118). -/
theorem boot_read {bytes : List Byte} (s : State) (hlen : bytes.length ≤ 3584) (k : Nat) :
    (boot bytes [] s).mem.read (0x200 + k) = bytes.getD k 0#8 := by
  rcases Nat.lt_or_ge k bytes.length with hk | hk
  · exact load_read (resetCore s) hlen hk
  · have hzero : (resetCore s).mem.read (0x200 + k) = 0#8 := resetCore_read_zero s (by omega)
    rw [boot_of_le s hlen, read_copyBytes, if_neg (by omega), hzero, List.getD_eq_getElem?_getD,
      List.getElem?_eq_none hk, Option.getD_none]

/-- Settles O27: the boot keeps the reset status and PC, and the fetch reads the first two bytes at
0x200. -/
theorem bootFetchesTheProgram : Obligations.BootFetchesTheProgram := by
  intro bytes s hlen
  have hstatus : (boot bytes [] s).status = .running := by rw [boot_of_le s hlen]; rfl
  have hpc : (boot bytes [] s).pc = 0x200#16 := by rw [boot_of_le s hlen]; rfl
  have haddr : (boot bytes [] s).pc.toNat = 0x200 := congrArg BitVec.toNat hpc
  have hhi : (boot bytes [] s).mem.read 0x200 = bytes.getD 0 0#8 := boot_read s hlen 0
  have hlo : (boot bytes [] s).mem.read (0x200 + 1) = bytes.getD 1 0#8 := boot_read s hlen 1
  refine ⟨hstatus, hpc, ?_⟩
  rw [fetch_of_le (by omega), haddr, hhi, hlo]

end Sys2Proof.Machine
